-- ==== Sys2Proof/Word.lean ====
section
/-! DEFINITION. The word types of the SHA3-256 core: bytes, lanes, command words, and the arrays its registers hold.
Rules R8, R10 and R30 to R34 of spec/00_scope.md and spec/10_state.md fix every width and length. -/

namespace Sys2Proof

/-- One byte. -/
abbrev Byte := BitVec 8

/-- One lane of the state, an unsigned 64-bit value; bit 0 is the least significant (R10). -/
abbrev Lane := BitVec 64

/-- One command word, 32 bits (R110). -/
abbrev Word := BitVec 32

/-- The state `S`: 25 lanes in lane order, lane `x + 5*y` being `S[x][y]` (R11, R30). -/
abbrev Lanes := Vector Lane 25

/-- One message block, `rateBytes` = 136 bytes (R8, R33). -/
abbrev Block := Vector Byte 136

/-- One digest, 32 bytes (R8, R34). -/
abbrev Digest := Vector Byte 32

end Sys2Proof
end

