-- ==== Sys2Proof/Config.lean ====
section
/-! DEFINITION. What the spec leaves to the platform or leaves open (R9, R85; I1 and I3 of spec/93_implementation_defined.md).
The two constants marked `opaque` have no body, so a claim that mentions them holds whatever they are. -/

namespace Sys2Proof

/-- Where the platform places the window, counted in windows of 0x400 bytes. DESIGN CHOICE (log 6; safe): only the product below
is used, so CORE_BASE is any multiple of 0x400, as R9 says. -/
opaque Config.coreBaseSlot : Nat

/-- `CORE_BASE`, the host address of window offset 0 (R9, R70). -/
def Config.coreBase : Nat := 0x400 * Config.coreBaseSlot

/-- The free value of a read of STATE, BLOCK or DIGEST while the engine is busy (R85, I1): `Unspecified(w)` is the low `w` bytes.
It is applied to the number of the draw, so two reads may differ, and to what the datapath holds, so that not even a comparison
of two machines can prove the value independent of the secret state (log 5; safe). -/
opaque Config.busyReadValue (draw : Nat) (lanes : Lanes) (buf : Block) (dig : Digest) : BitVec 64

end Sys2Proof
end

