-- ==== Sys2Proof/Syntax.lean ====
section
/-! DEFINITION. The command set: one constructor for each row of spec/opcode_table.json (R112). -/

namespace Sys2Proof

/-- A command of the core (R112). `pad` carries the whole 8-bit ARG field, an unsigned remainder length (R113); its legal
values are those of `Instr.wellFormed`. -/
inductive Instr where
  /-- NOP, OP 0x00: no operation (R240). -/
  | nop
  /-- INIT, OP 0x01: a fresh hash computation (R241). -/
  | init
  /-- ABSORB, OP 0x02: XOR the block buffer into the rate lanes (R162). -/
  | absorb
  /-- PERMUTE, OP 0x03: Keccak-f[1600] (R191). -/
  | permute
  /-- ABSP, OP 0x04: absorb, then permute (R242). -/
  | absp
  /-- PAD, OP 0x05: pad the block buffer after `r` message bytes (R144). -/
  | pad (r : BitVec 8)
  /-- SQUEEZE, OP 0x06: copy the digest out of the state (R221). -/
  | squeeze
  deriving DecidableEq, Repr

end Sys2Proof
end

