-- ==== Sys2Proof/WellFormed.lean ====
section
/-! DEFINITION. Which commands the core can hold: PAD's argument is 0..135 (R113); every other command has no operand. -/

namespace Sys2Proof

/-- The check of R113: `r` of PAD is at most 135. -/
def Instr.wellFormed : Instr → Bool
  | .nop => true
  | .init => true
  | .absorb => true
  | .permute => true
  | .absp => true
  | .pad r => decide (r.toNat ≤ 135)
  | .squeeze => true

/-- The same check as a proposition. -/
abbrev Instr.WellFormed (i : Instr) : Prop := i.wellFormed = true

end Sys2Proof
end

