-- ==== Sys2Proof/Decode.lean ====
section
/-! DEFINITION. Command words: the fields (R110), the decoder with its named rejections (R115, R116), the encoder (R117),
the decoder over bytes (R111) and the assembler (R117). -/

namespace Sys2Proof

/-- The interface errors (R271). The decoder rejects a word with one of the first three; the other two belong to the window. -/
inductive IfaceError where
  /-- Code 1: a CMD write whose OP is 0x07..0xFF. -/
  | illegalOpcode
  /-- Code 2: RSV is not 0, or ARG is not 0 for a command other than PAD. -/
  | reservedNonzero
  /-- Code 3: PAD with ARG in 136..255. -/
  | badArg
  /-- Code 4: a CMD write, or a write to STATE or BLOCK, while a command is pending. -/
  | busyViolation
  /-- Code 5: a misaligned access, a reserved offset, a wrong width, or a write to a read-only location. -/
  | badAccess
  deriving DecidableEq, Repr

/-- The value of STATUS.ERRCODE for each error (R271). -/
def IfaceError.code : IfaceError → BitVec 8
  | .illegalOpcode => 1
  | .reservedNonzero => 2
  | .badArg => 3
  | .busyViolation => 4
  | .badAccess => 5

/-- Field OP, bits 7:0 (R110). -/
def opField (c : Word) : BitVec 8 := c.extractLsb' 0 8

/-- Field ARG, bits 15:8 (R110, R113). -/
def argField (c : Word) : BitVec 8 := c.extractLsb' 8 8

/-- Field RSV, bits 31:16 (R110, R114). -/
def rsvField (c : Word) : BitVec 16 := c.extractLsb' 16 16

/-- The operation each OP value selects (R112); OP 0x07..0xFF selects none. -/
def selectCommand (op arg : BitVec 8) : Option Instr :=
  match op.toNat with
  | 0 => some .nop
  | 1 => some .init
  | 2 => some .absorb
  | 3 => some .permute
  | 4 => some .absp
  | 5 => some (.pad arg)
  | 6 => some .squeeze
  | _ => none

/-- Decoding: the checks of `IssueCommand` on the word itself, in the order of R115. -/
def decode (c : Word) : Except IfaceError Instr :=
  match selectCommand (opField c) (argField c) with
  | none => .error .illegalOpcode
  | some i =>
    if rsvField c ≠ 0 then .error .reservedNonzero
    else if opField c ≠ 0x05 ∧ argField c ≠ 0 then .error .reservedNonzero
    else if opField c = 0x05 ∧ (argField c).toNat > 135 then .error .badArg
    else .ok i

/-- The bytes of a command word as the window carries them, least significant first (R72, R110). -/
def wordBytes (c : Word) : List Byte :=
  [c.extractLsb' 0 8, c.extractLsb' 8 8, c.extractLsb' 16 8, c.extractLsb' 24 8]

/-- Decoding bytes: a command is exactly 4 bytes; any other length issues nothing and is BAD_ACCESS (R111). -/
def decodeBytes : List Byte → Except IfaceError Instr
  | [b0, b1, b2, b3] =>
    decode (b0.setWidth 32 ||| b1.setWidth 32 <<< 8 ||| b2.setWidth 32 <<< 16 ||| b3.setWidth 32 <<< 24)
  | _ => .error .badAccess

/-- OP of each command (R112). -/
def Instr.opcode : Instr → BitVec 8
  | .nop => 0x00
  | .init => 0x01
  | .absorb => 0x02
  | .permute => 0x03
  | .absp => 0x04
  | .pad _ => 0x05
  | .squeeze => 0x06

/-- ARG of each command (R113). -/
def Instr.arg : Instr → BitVec 8
  | .nop => 0
  | .init => 0
  | .absorb => 0
  | .permute => 0
  | .absp => 0
  | .pad r => r
  | .squeeze => 0

/-- The command word: OP in bits 7:0, ARG in bits 15:8, RSV = 0 (R110, R117). -/
def encode (i : Instr) : Word := i.opcode.setWidth 32 ||| i.arg.setWidth 32 <<< 8

/-- The instruction a row of spec/opcode_table.json stands for: the low `nbits` bits of `w`, laid out as the four bytes a CMD write
carries, given to the decoder; none where it rejects. -/
def decodeTableWord (nbits w : Nat) : Option Instr :=
  if w % 2 ^ nbits < 2 ^ 32 then (decodeBytes (wordBytes (BitVec.ofNat 32 (w % 2 ^ nbits)))).toOption
  else none

/-- The value of one digit character in bases up to 16. -/
def digitValue (c : Char) : Option Nat :=
  if '0' ≤ c ∧ c ≤ '9' then some (c.toNat - '0'.toNat)
  else if 'a' ≤ c ∧ c ≤ 'f' then some (c.toNat - 'a'.toNat + 10)
  else if 'A' ≤ c ∧ c ≤ 'F' then some (c.toNat - 'A'.toNat + 10)
  else none

/-- A run of digits in a base, at least one; none at a character that is no digit of the base. -/
def parseDigits (base : Nat) (cs : List Char) : Option Nat :=
  if cs = [] then none
  else cs.foldl
    (fun acc c => acc.bind fun n => (digitValue c).bind fun d => if d < base then some (base * n + d) else none)
    (some 0)

/-- A decimal number or a `0x` hexadecimal number (R117). -/
def parseNumber : List Char → Option Nat
  | '0' :: 'x' :: cs => parseDigits 16 cs
  | cs => parseDigits 10 cs

/-- The command a mnemonic with its argument stands for (R117): only PAD takes an argument, 0..135, and must have one. -/
def assembleCommand (mnemonic : List Char) (argument : Option Nat) : Option Instr :=
  match mnemonic, argument with
  | ['N', 'O', 'P'], none => some .nop
  | ['I', 'N', 'I', 'T'], none => some .init
  | ['A', 'B', 'S', 'O', 'R', 'B'], none => some .absorb
  | ['P', 'E', 'R', 'M', 'U', 'T', 'E'], none => some .permute
  | ['A', 'B', 'S', 'P'], none => some .absp
  | ['P', 'A', 'D'], some r => if r ≤ 135 then some (.pad (BitVec.ofNat 8 r)) else none
  | ['S', 'Q', 'U', 'E', 'E', 'Z', 'E'], none => some .squeeze
  | _, _ => none

/-- Assembling one line: the mnemonic in upper case, then for PAD one space and the number; none where the assembler refuses (R117).
DESIGN CHOICE (log 20; safe): hexadecimal digits of both cases and leading zeros are read. -/
def assemble (line : List Char) : Option Word :=
  match line.span (· ≠ ' ') with
  | (mnemonic, []) => (assembleCommand mnemonic none).map encode
  | (mnemonic, _ :: number) =>
    (parseNumber number).bind fun r => (assembleCommand mnemonic (some r)).map encode

end Sys2Proof
end

