-- ==== Sys2Proof/Machine/State.lean ====
section
/-! DEFINITION. The state of the core (spec/10_state.md), the outside world's inputs and outputs, the reasons a step can stop,
and the state after reset (R50). -/

namespace Sys2Proof.Machine

/-- The widths a host access can have, in bytes 1, 2, 4 and 8; the bus expresses no other (R76, I9). -/
inductive Width where
  | w1
  | w2
  | w4
  | w8
  deriving DecidableEq, Repr

/-- One operation of the host program (R118, R119). Addresses are host addresses (R14, R70). -/
inductive HostOp where
  /-- `MemRead(addr, w)`: one access. -/
  | read (addr : Nat) (w : Width)
  /-- `MemWrite(addr, w, v)`: one access; the access value is the low `w` bytes of `v` (log 14). -/
  | write (addr : Nat) (w : Width) (v : BitVec 64)
  /-- `wait`: read STATUS, again and again, until it shows BUSY = 0 (R119); each poll is one access. -/
  | wait
  deriving DecidableEq, Repr

/-- Who moves next: an agent (R16), or a reset from outside (R300). -/
inductive Turn where
  | host
  | engine
  | reset
  deriving DecidableEq, Repr

/-- Reasons to stop with a fault: NONE. The core has no trap and its completions cannot fail (R270, R273), so no step of this model
ever answers a fault (log 10; safe: nothing is hidden by a type without values). -/
inductive Fault where
  deriving DecidableEq, Repr

/-- Reasons to refuse a step. -/
inductive Refusal where
  /-- Raised by `exec` for an instruction that has no meaning yet; safe. No arm of this model raises it. -/
  | notModelled (mnemonic : String)
  /-- Raised by `execPad` when its argument is above 135: no word decodes to such a command and acceptance rejects it (R113, R115),
  so the spec gives it no effect; safe, and no run reaches it (log 11). -/
  | illFormedCommand
  deriving DecidableEq, Repr

/-- Everything the spec gives the core, and the model's own four fields for what is outside it. -/
structure State where
  /-- `S`: the 25 lanes (R30). -/
  lanes : Lanes
  /-- `BUF`: the block buffer (R33). -/
  buf : Block
  /-- `DIG`: the digest register (R34). -/
  dig : Digest
  /-- STATUS.DVALID (R40). -/
  dvalid : Bool
  /-- STATUS.ERR (R41). -/
  err : Bool
  /-- STATUS.ERRCODE (R42): `none` is code 0. -/
  errCode : Option IfaceError
  /-- BLOCK_COUNT (R43). -/
  blockCount : BitVec 32
  /-- `PEND`: the accepted command that has not completed (R48); STATUS.BUSY is 1 exactly when there is one (R39). -/
  pend : Option Instr
  /-- The model's own: the host operations still to come, in program order (R86, R118; log 3). -/
  host : List HostOp
  /-- The model's own: the turns still to come, that is the interleaving of R86 (log 1, log 3). -/
  sched : List Turn
  /-- The model's own: what the host's reads returned, newest first (R78; log 3). -/
  responses : List (BitVec 64)
  /-- The model's own: how many free values have been drawn (R85; log 5). -/
  draws : Nat
  deriving DecidableEq, Repr

/-- The machine right after reset (R50, R300): every bit of the core's state 0, `PEND` none. The model's own fields are empty
(DESIGN CHOICE, log 3 and log 5). -/
def State.reset : State where
  lanes := Vector.replicate 25 0
  buf := Vector.replicate 136 0
  dig := Vector.replicate 32 0
  dvalid := false
  err := false
  errCode := none
  blockCount := 0
  pend := none
  host := []
  sched := []
  responses := []
  draws := 0

end Sys2Proof.Machine
end

