-- ==== Sys2Proof/Machine/Operands.lean ====
section
/-! DEFINITION. Bytes, lanes and window offsets: the byte-order primitives (R10, R13, R72), lane indexing (R11, R12), block and digest
bytes (R33, R34), access widths (R76) and the regions of the window (R49, R78). -/

namespace Sys2Proof.Machine

/-- How many bytes an access of this width moves (R76). -/
def Width.bytes : Width → Nat
  | .w1 => 1
  | .w2 => 2
  | .w4 => 4
  | .w8 => 8

/-- Byte `k` of a 64-bit value, bits `8k+7:8k` (R10, R72). -/
def byteOf (v : BitVec 64) (k : Nat) : Byte := v.extractLsb' (8 * k) 8

/-- `sum over k in 0..n-1 of zext_64(f k) << 8k`: the value of `n` bytes, least significant first (R13, R78). -/
def valueOfBytes (n : Nat) (f : Nat → Byte) : BitVec 64 :=
  (List.range n).foldl (fun acc k => acc + (f k).setWidth 64 <<< (8 * k)) 0

/-- `lane(b0..b7)` (R13). -/
def laneOfBytes (f : Nat → Byte) : Lane := valueOfBytes 8 f

/-- `v` with byte `k` replaced by `b` and its other bits unchanged (R79). -/
def setByteOf (v : BitVec 64) (k : Nat) (b : Byte) : BitVec 64 :=
  laneOfBytes fun j => if j = k then b else byteOf v j

/-- The low `n` bytes of a 64-bit value, zero-extended (R78, R85). -/
def lowBytes (n : Nat) (v : BitVec 64) : BitVec 64 := valueOfBytes n (byteOf v)

/-- `S[x][y]`, indices modulo 5 (R11, R12). -/
def laneAt (A : Lanes) (x y : Nat) : Lane := A[x % 5 + 5 * (y % 5)]'(by omega)

/-- `S[x][y] <- v`, indices modulo 5 (R11, R12, R14). -/
def setLaneAt (A : Lanes) (x y : Nat) (v : Lane) : Lanes := A.set (x % 5 + 5 * (y % 5)) v (by omega)

/-- The matrix whose lane `(x, y)` is `f x y`, every lane read from the old values only (R11, R15). -/
def buildLanes (f : Nat → Nat → Lane) : Lanes := Vector.ofFn fun i => f (i.val % 5) (i.val / 5)

/-- The all-zero state. -/
def zeroLanes : Lanes := Vector.replicate 25 0

/-- `BUF[j]`; 0 outside 0..135, where no rule reads (R14, R33). -/
def blockByte (B : Block) (j : Nat) : Byte := if h : j < 136 then B[j] else 0

/-- `BUF[j] <- b`; nothing outside 0..135, where no rule writes (R14, R33). -/
def setBlockByte (B : Block) (j : Nat) (b : Byte) : Block := if h : j < 136 then B.set j b else B

/-- `DIG[j]`; 0 outside 0..31, where no rule reads (R14, R34). -/
def digestByte (D : Digest) (j : Nat) : Byte := if h : j < 32 then D[j] else 0

/-- Block lane `i`: `lane(BUF[8i], ..., BUF[8i+7])` (R33). -/
def blockLane (B : Block) (i : Nat) : Lane := laneOfBytes fun k => blockByte B (8 * i + k)

/-- `StateByte(o)`: byte `o mod 8` of lane `o div 8` (R73). -/
def stateByte (A : Lanes) (o : Nat) : Byte := byteOf (laneAt A (o / 8 % 5) (o / 8 / 5)) (o % 8)

/-- `StateByte(o) <- b` (R79). -/
def setStateByte (A : Lanes) (o : Nat) (b : Byte) : Lanes :=
  setLaneAt A (o / 8 % 5) (o / 8 / 5) (setByteOf (laneAt A (o / 8 % 5) (o / 8 / 5)) (o % 8) b)

/-- The regions of the window (R49, R78). -/
inductive Region where
  | state
  | block
  | digest
  | cmd
  | status
  | count
  | unmapped
  deriving DecidableEq, Repr

/-- `Region(o, w)` of R78. -/
def region (o w : Nat) : Region :=
  if o + w ≤ 0x0C8 then .state
  else if 0x100 ≤ o ∧ o + w ≤ 0x188 then .block
  else if 0x200 ≤ o ∧ o + w ≤ 0x220 then .digest
  else if o = 0x300 then .cmd
  else if o = 0x308 then .status
  else if o = 0x310 then .count
  else .unmapped

/-- The control registers, which admit width 4 only (R76, R78). -/
def Region.isControl : Region → Bool
  | .state => false
  | .block => false
  | .digest => false
  | .cmd => true
  | .status => true
  | .count => true
  | .unmapped => false

/-- The window offset of a host address, or none outside the window (R70, R71). -/
def windowOffset (base addr : Nat) : Option Nat :=
  if base ≤ addr ∧ addr < base + 0x400 then some (addr - base) else none

end Sys2Proof.Machine
end

