-- ==== Sys2Proof/Machine/Flags.lean ====
section
/-! DEFINITION. STATUS: its fields as bits and the word a read returns (R38 to R42, R78). -/

namespace Sys2Proof.Machine

/-- STATUS.BUSY: a command is pending (R39, R48). -/
def State.busy (s : State) : Bool := s.pend.isSome

/-- STATUS.ERRCODE as bits: 0 when no error is recorded (R42, R271). -/
def errCodeBits : Option IfaceError → BitVec 8
  | none => 0
  | some e => e.code

/-- The STATUS word (R38, R78): BUSY in bit 0, DVALID in bit 1, ERR in bit 2, ERRCODE in bits 15:8, every other bit 0. -/
def statusWord (s : State) : BitVec 64 :=
  (BitVec.ofBool s.busy).setWidth 64 ||| (BitVec.ofBool s.dvalid).setWidth 64 <<< 1
    ||| (BitVec.ofBool s.err).setWidth 64 <<< 2 ||| (errCodeBits s.errCode).setWidth 64 <<< 8

end Sys2Proof.Machine
end

