-- ==== Sys2Proof/Machine/Ops.lean ====
section
/-! DEFINITION. The operations over state that the accesses and the commands share: register writes, recording an interface error
(the core's exception, R272) and clearing it (the return, R276), and the bytes of the window (R73 to R75, R78). -/

namespace Sys2Proof.Machine

/-- `S <- A`. -/
def State.setLanes (s : State) (A : Lanes) : State := { s with lanes := A }

/-- `BUF <- B`. -/
def State.setBuf (s : State) (B : Block) : State := { s with buf := B }

/-- `DIG <- D`. -/
def State.setDig (s : State) (D : Digest) : State := { s with dig := D }

/-- `STATUS.DVALID <- b` (R40). -/
def State.setDvalid (s : State) (b : Bool) : State := { s with dvalid := b }

/-- `BLOCK_COUNT <- n` (R43). -/
def State.setBlockCount (s : State) (n : BitVec 32) : State := { s with blockCount := n }

/-- `BLOCK_COUNT <- (BLOCK_COUNT + 1) mod 2^32` (R43). -/
def State.countBlock (s : State) : State := s.setBlockCount (s.blockCount + 1)

/-- `PEND <- (op, arg)` (R115). -/
def State.setPend (s : State) (i : Instr) : State := { s with pend := some i }

/-- `PEND <- none`: the end of a completion, by which BUSY falls (R39, R48). -/
def State.complete (s : State) : State := { s with pend := none }

/-- `raise Err(code)`: the first error since ERR was last clear is recorded, a later one changes nothing (R272, R277). The access that
raises it has no other effect: its caller does nothing else. -/
def State.raiseErr (s : State) (e : IfaceError) : State :=
  if s.err then s else { s with err := true, errCode := some e }

/-- Clearing: ERR and ERRCODE together (R41, R276). -/
def State.clearErr (s : State) : State := { s with err := false, errCode := none }

/-- A read's value delivered to the host. -/
def State.respond (s : State) (v : BitVec 64) : State := { s with responses := v :: s.responses }

/-- A free value has been drawn (R85, I1; log 5). -/
def State.countDraw (s : State) : State := { s with draws := s.draws + 1 }

/-- The host's operations still to come. -/
def State.setHost (s : State) (ops : List HostOp) : State := { s with host := ops }

/-- The turns still to come. -/
def State.setSched (s : State) (ts : List Turn) : State := { s with sched := ts }

/-- `WinByte(o)` (R78): the byte of STATE (R73), BLOCK (R74) or DIGEST (R75) at a window offset; 0 elsewhere, where no rule reads. -/
def winByte (s : State) (o : Nat) : Byte :=
  if o < 0x0C8 then stateByte s.lanes o
  else if 0x100 ≤ o ∧ o < 0x188 then blockByte s.buf (o - 0x100)
  else if 0x200 ≤ o ∧ o < 0x220 then digestByte s.dig (o - 0x200)
  else 0

/-- `for k in 0..n-1: StateByte(o+k) <- v[8k+7:8k]` (R79). -/
def writeStateBytes (A : Lanes) (o n : Nat) (v : BitVec 64) : Lanes :=
  (List.range n).foldl (fun A k => setStateByte A (o + k) (byteOf v k)) A

/-- `for k in 0..n-1: BUF[j+k] <- v[8k+7:8k]` (R79). -/
def writeBlockBytes (B : Block) (j n : Nat) (v : BitVec 64) : Block :=
  (List.range n).foldl (fun B k => setBlockByte B (j + k) (byteOf v k)) B

end Sys2Proof.Machine
end

