-- ==== Sys2Proof/Machine/Absorber.lean ====
section
/-! DEFINITION. The Absorber (spec/41_absorber.md): the absorb function (R160) and the ABSORB command (R162). -/

namespace Sys2Proof.Machine

/-- `absorb(S, B)` (R160): block lane `i`, for `i` in 0..16, is XOR-ed into `S[i mod 5][i div 5]`; the capacity lanes pass through. -/
def absorb (A : Lanes) (B : Block) : Lanes :=
  (List.range 17).foldl (fun A' i => setLaneAt A' (i % 5) (i / 5) (laneAt A (i % 5) (i / 5) ^^^ blockLane B i)) A

/-- ABSORB (R162): the ENGINE's completion. -/
def execAbsorb (s : State) : Host.Outcome State Fault Refusal :=
  .next (((s.setLanes (absorb s.lanes s.buf)).countBlock).setDvalid false).complete

end Sys2Proof.Machine
end

