-- ==== Sys2Proof/Machine/Permuter.lean ====
section
/-! DEFINITION. The Permuter (spec/42_permuter.md): Keccak-f[1600] with its step mappings (R180 to R185), the two constant tables
(R186, R187), their generators (R188, R189) and the PERMUTE command (R191). -/

namespace Sys2Proof.Machine

/-- `rotl64(v, n)` for `n` in 0..63 (R13). -/
def rotl64 (v : Lane) (n : Nat) : Lane := if n = 0 then v else v <<< n ||| v >>> (64 - n)

/-- Column `x` of the table of R186, `y` from 0 to 4 (the spec's values from general knowledge, log 16). -/
def rotColumn : Nat → List Nat
  | 0 => [0, 36, 3, 41, 18]
  | 1 => [1, 44, 10, 45, 2]
  | 2 => [62, 6, 43, 15, 61]
  | 3 => [28, 55, 25, 21, 56]
  | 4 => [27, 20, 39, 8, 14]
  | _ => []

/-- `ROT[x][y]`, indices modulo 5 (R12, R186). -/
def rotOffset (x y : Nat) : Nat := (rotColumn (x % 5)).getD (y % 5) 0

/-- `RC[i]`, for `i` in 0..23, two rounds to a row as R187's table has them (the spec's values from general knowledge, log 16). -/
def roundConstant : Nat → Lane
  | 0 => 0x0000000000000001 | 12 => 0x000000008000808B
  | 1 => 0x0000000000008082 | 13 => 0x800000000000008B
  | 2 => 0x800000000000808A | 14 => 0x8000000000008089
  | 3 => 0x8000000080008000 | 15 => 0x8000000000008003
  | 4 => 0x000000000000808B | 16 => 0x8000000000008002
  | 5 => 0x0000000080000001 | 17 => 0x8000000000000080
  | 6 => 0x8000000080008081 | 18 => 0x000000000000800A
  | 7 => 0x8000000000008009 | 19 => 0x800000008000000A
  | 8 => 0x000000000000008A | 20 => 0x8000000080008081
  | 9 => 0x0000000000000088 | 21 => 0x8000000000008080
  | 10 => 0x0000000080008009 | 22 => 0x0000000080000001
  | 11 => 0x000000008000000A | 23 => 0x8000000080008008
  | _ => 0

/-- The column parities `C[x]` of theta, all from the input (R182). -/
def columnParity (A : Lanes) : Vector Lane 5 :=
  Vector.ofFn fun x => laneAt A x 0 ^^^ laneAt A x 1 ^^^ laneAt A x 2 ^^^ laneAt A x 3 ^^^ laneAt A x 4

/-- An element of a five-lane row, index modulo 5 (R12). -/
def rowAt (C : Vector Lane 5) (x : Nat) : Lane := C[x % 5]'(by omega)

/-- The theta offsets `D[x]` from the parities (R182). -/
def thetaOffsets (C : Vector Lane 5) : Vector Lane 5 :=
  Vector.ofFn fun x => rowAt C (x.val + 4) ^^^ rotl64 (rowAt C (x.val + 1)) 1

/-- Theta (R182). -/
def theta (A : Lanes) : Lanes :=
  let D := thetaOffsets (columnParity A)
  buildLanes fun x y => laneAt A x y ^^^ rowAt D x

/-- Rho and pi, fused, into a fresh matrix: lane `(x, y)`, rotated, is written to `(y, 2x + 3y)` (R183). -/
def rhoPi (A : Lanes) : Lanes :=
  (List.range 25).foldl
    (fun B i => setLaneAt B (i / 5) (2 * (i % 5) + 3 * (i / 5)) (rotl64 (laneAt A (i % 5) (i / 5)) (rotOffset (i % 5) (i / 5))))
    zeroLanes

/-- Chi (R184). -/
def chi (B : Lanes) : Lanes :=
  buildLanes fun x y => laneAt B x y ^^^ (~~~ laneAt B (x + 1) y &&& laneAt B (x + 2) y)

/-- Iota of round `i` (R185). -/
def iota (A : Lanes) (i : Nat) : Lanes := setLaneAt A 0 0 (laneAt A 0 0 ^^^ roundConstant i)

/-- One round (R181). -/
def keccakRound (A : Lanes) (i : Nat) : Lanes := iota (chi (rhoPi (theta A))) i

/-- `KeccakF(S)`: rounds 0 to 23 (R180). -/
def keccakF (A : Lanes) : Lanes := (List.range 24).foldl keccakRound A

/-- PERMUTE (R191): the ENGINE's completion. -/
def execPermute (s : State) : Host.Outcome State Fault Refusal :=
  .next ((s.setLanes (keccakF s.lanes)).setDvalid false).complete

/-- One shift of the generator's 8-bit register, `R[0]` first (R188). -/
def lfsrStep : List Bool → List Bool
  | [r0, r1, r2, r3, r4, r5, r6, r7] => [r7, r0, r1, r2, xor r3 r7, xor r4 r7, xor r5 r7, r6]
  | r => r

/-- `rc(t)` (R188). -/
def rcBit (t : Nat) : Bool :=
  ((List.range (t % 255)).foldl (fun r _ => lfsrStep r) [true, false, false, false, false, false, false, false]).headD false

/-- `RC[i]` as R188 generates it: `sum over j in 0..6 of rc(j + 7*i) << (2^j - 1)`. -/
def generatedRoundConstant (i : Nat) : Lane :=
  (List.range 7).foldl (fun acc j => acc + (BitVec.ofBool (rcBit (j + 7 * i))).setWidth 64 <<< (2 ^ j - 1)) 0

/-- The walk of R189: after `t` steps from `(1, 0)`, the position reached. -/
def rotWalk (t : Nat) : Nat × Nat :=
  (List.range t).foldl (fun p _ => (p.2, (2 * p.1 + 3 * p.2) % 5)) (1, 0)

/-- `ROT` as R189 generates it: `ROT[0][0] = 0`, and step `t` of the walk sets its position to `((t+1)*(t+2)/2) mod 64`. -/
def generatedRotations : List Nat :=
  (List.range 24).foldl
    (fun T t => T.set ((rotWalk t).1 + 5 * (rotWalk t).2) ((t + 1) * (t + 2) / 2 % 64)) (List.replicate 25 0)

end Sys2Proof.Machine
end

