-- ==== Sys2Proof/Machine/Driver.lean ====
section
/-! DEFINITION. The driver commands NOP, INIT and ABSP (spec/44_driver.md). -/

namespace Sys2Proof.Machine

/-- NOP (R240): no effect but BUSY falling. -/
def execNop (s : State) : Host.Outcome State Fault Refusal := .next s.complete

/-- INIT (R241): state, buffer, digest, counter and DVALID to 0; ERR and ERRCODE stay. -/
def execInit (s : State) : Host.Outcome State Fault Refusal :=
  .next (((((s.setLanes zeroLanes).setBuf (Vector.replicate 136 0)).setDig (Vector.replicate 32 0)).setBlockCount 0).setDvalid
    false).complete

/-- ABSP (R242): absorb, then permute what the absorption wrote; one block counted. -/
def execAbsp (s : State) : Host.Outcome State Fault Refusal :=
  .next (((s.setLanes (keccakF (absorb s.lanes s.buf))).countBlock).setDvalid false).complete

end Sys2Proof.Machine
end

