-- ==== Sys2Proof/Machine/Padder.lean ====
section
/-! DEFINITION. The Padder (spec/40_padder.md): the padding function (R140) and the PAD command (R144). -/

namespace Sys2Proof.Machine

/-- `for j in r..135: BUF[j] <- 0x00` (R144). -/
def zeroFrom (r : Nat) (B : Block) : Block := Vector.ofFn fun j => if r ≤ j.val then 0 else B[j.val]

/-- `BUF[j] <- BUF[j] | m` (R144). -/
def orBlockByte (j : Nat) (m : Byte) (B : Block) : Block := setBlockByte B j (blockByte B j ||| m)

/-- The two pad bytes, OR-ed in: 0x06 at index `r`, then 0x80 at index 135 (R140, R142, R144). -/
def orPadBytes (r : Nat) (B : Block) : Block := orBlockByte 135 0x80 (orBlockByte r 0x06 B)

/-- PAD's effect on the buffer (R144). -/
def padBlock (r : Nat) (B : Block) : Block := orPadBytes r (zeroFrom r B)

/-- `M[136k .. 136k+135]`, the `k`-th block of a message; 0 past its end (R140). -/
def messageBlock (M : List Byte) (k : Nat) : Block := Vector.ofFn fun j => M.getD (136 * k + j.val) 0

/-- The final block `F` of `pad(M)`: the message tail, zero fill and the two pad bytes (R140). -/
def finalBlock (M : List Byte) : Block := orPadBytes (M.length % 136) (messageBlock M (M.length / 136))

/-- `pad(M)`: the full blocks unchanged, then the final block (R140). -/
def pad (M : List Byte) : List Block := (List.range (M.length / 136)).map (messageBlock M) ++ [finalBlock M]

/-- PAD (R144): the ENGINE's completion. An argument above 135 is no command: acceptance rejects it (R115), so the spec gives it no
effect, and the meaning refuses it by name (log 11). -/
def execPad (r : BitVec 8) (s : State) : Host.Outcome State Fault Refusal :=
  if r.toNat ≤ 135 then .next (s.setBuf (padBlock r.toNat s.buf)).complete else .refused .illFormedCommand

end Sys2Proof.Machine
end

