-- ==== Sys2Proof/Machine/Squeezer.lean ====
section
/-! DEFINITION. The Squeezer (spec/43_squeezer.md): the squeeze function (R220) and the SQUEEZE command (R221). -/

namespace Sys2Proof.Machine

/-- `squeeze(S)` (R220): byte `8i + k` of the digest is byte `k` of lane `i`, for the first four lanes. -/
def squeeze (A : Lanes) : Digest :=
  Vector.ofFn fun j => byteOf (laneAt A (j.val / 8 % 5) (j.val / 8 / 5)) (j.val % 8)

/-- SQUEEZE (R221): the ENGINE's completion. -/
def execSqueeze (s : State) : Host.Outcome State Fault Refusal :=
  .next ((s.setDig (squeeze s.lanes)).setDvalid true).complete

end Sys2Proof.Machine
end

