-- ==== Sys2Proof/Machine/Dispatch.lean ====
section
/-! DEFINITION. The meaning of each command: what its ENGINE completion step does (R48), one arm per constructor. -/

namespace Sys2Proof.Machine

def exec (i : Instr) (s : State) : Host.Outcome State Fault Refusal :=
  match i with
  | .nop => Sys2Proof.Machine.execNop s
  | .init => Sys2Proof.Machine.execInit s
  | .absorb => Sys2Proof.Machine.execAbsorb s
  | .permute => Sys2Proof.Machine.execPermute s
  | .absp => Sys2Proof.Machine.execAbsp s
  | .pad r => Sys2Proof.Machine.execPad r s
  | .squeeze => Sys2Proof.Machine.execSqueeze s

end Sys2Proof.Machine
end

