-- ==== Sys2Proof/Machine/Window.lean ====
section
/-! DEFINITION. Host accesses to the register window: `WinRead` (R78), `WinWrite` (R79), `IssueCommand` (R115), and an access at a host
address (R14, R70, R71). -/

namespace Sys2Proof.Machine

/-- An erroneous read: the error is recorded and the read returns 0 (R272, D33). -/
def failRead (s : State) (e : IfaceError) : BitVec 64 × State := (0, s.raiseErr e)

/-- A data region's read: an unspecified value while busy (R85, I1), else the bytes, least significant first (R72, R78). -/
def readData (o : Nat) (w : Width) (s : State) : BitVec 64 × State :=
  if s.busy then (lowBytes w.bytes (Config.busyReadValue s.draws s.lanes s.buf s.dig), s.countDraw)
  else (valueOfBytes w.bytes fun k => winByte s (o + k), s)

/-- `WinRead(o, w)`: the value, zero-extended to the bus, and the state after (R78, R81 to R83). -/
def winRead (o : Nat) (w : Width) (s : State) : BitVec 64 × State :=
  if o % w.bytes ≠ 0 then failRead s .badAccess
  else if region o w.bytes = .unmapped then failRead s .badAccess
  else if (region o w.bytes).isControl ∧ w.bytes ≠ 4 then failRead s .badAccess
  else match region o w.bytes with
    | .state => readData o w s
    | .block => readData o w s
    | .digest => readData o w s
    | .cmd => (0, s)
    | .status => (statusWord s, s)
    | .count => (s.blockCount.setWidth 64, s)
    | .unmapped => failRead s .badAccess

/-- `IssueCommand(c)` (R115): BUSY_VIOLATION while a command is pending, else the decoder's checks; an accepted command changes nothing
but `PEND`. -/
def issueCommand (c : Word) (s : State) : State :=
  if s.busy then s.raiseErr .busyViolation
  else match decode c with
    | .error e => s.raiseErr e
    | .ok i => s.setPend i

/-- The STATE arm of `WinWrite`: rejected while busy, else the bytes are written and DVALID is cleared (R79, R85, R40). -/
def writeState (o : Nat) (w : Width) (v : BitVec 64) (s : State) : State :=
  if s.busy then s.raiseErr .busyViolation
  else (s.setLanes (writeStateBytes s.lanes o w.bytes v)).setDvalid false

/-- The BLOCK arm of `WinWrite`: rejected while busy, else the bytes are written (R79, R85). -/
def writeBlock (o : Nat) (w : Width) (v : BitVec 64) (s : State) : State :=
  if s.busy then s.raiseErr .busyViolation
  else s.setBuf (writeBlockBytes s.buf (o - 0x100) w.bytes v)

/-- The STATUS arm of `WinWrite`: bit 2 clears ERR and ERRCODE, every other bit is ignored (R41, R79). -/
def writeStatus (v : BitVec 64) (s : State) : State := if v.getLsbD 2 then s.clearErr else s

/-- `WinWrite(o, w, v)` (R79, R81 to R83). -/
def winWrite (o : Nat) (w : Width) (v : BitVec 64) (s : State) : State :=
  if o % w.bytes ≠ 0 then s.raiseErr .badAccess
  else if region o w.bytes = .unmapped then s.raiseErr .badAccess
  else if (region o w.bytes).isControl ∧ w.bytes ≠ 4 then s.raiseErr .badAccess
  else match region o w.bytes with
    | .digest => s.raiseErr .badAccess
    | .count => s.raiseErr .badAccess
    | .state => writeState o w v s
    | .block => writeBlock o w v s
    | .cmd => issueCommand (v.extractLsb' 0 32) s
    | .status => writeStatus v s
    | .unmapped => s.raiseErr .badAccess

/-- `MemRead(addr, w)` by the host: inside the window `WinRead`, its value delivered; outside it nothing reaches the core (R71, log 17). -/
def hostRead (addr : Nat) (w : Width) (s : State) : State :=
  match windowOffset Config.coreBase addr with
  | none => s
  | some o => (winRead o w s).2.respond (winRead o w s).1

/-- `MemWrite(addr, w, v)` by the host: inside the window `WinWrite`, outside it nothing reaches the core (R71). -/
def hostWrite (addr : Nat) (w : Width) (v : BitVec 64) (s : State) : State :=
  match windowOffset Config.coreBase addr with
  | none => s
  | some o => winWrite o w v s

/-- One poll of `wait`: `rd.4 0x308 -> t` (R119). -/
def pollStatus (s : State) : State := (winRead 0x308 .w4 s).2.respond (winRead 0x308 .w4 s).1

/-- One HOST step: the next operation of the host program performs one access (R16, R118). `wait` stays the next operation while its poll
shows BUSY = 1 (R119). With no operation left the host does nothing (log 8). -/
def hostTurn (s : State) : State :=
  match s.host with
  | [] => s
  | .read addr w :: ops => hostRead addr w (s.setHost ops)
  | .write addr w v :: ops => hostWrite addr w v (s.setHost ops)
  | .wait :: ops => pollStatus (if s.busy then s else s.setHost ops)

end Sys2Proof.Machine
end

