-- ==== Sys2Proof/Machine/Turns.lean ====
section
/-! DEFINITION. What each turn of the interleaving does (R16, R48, R86, R300), which turn is next (log 1, log 2), and how a command is
placed so that it runs next (log 12). -/

namespace Sys2Proof.Machine

/-- The ENGINE step (R48): the pending command completes. With none pending the ENGINE is not enabled and nothing changes (log 8). -/
def engineTurn (s : State) : Host.Outcome State Fault Refusal :=
  match s.pend with
  | none => .next s
  | some i => exec i s

/-- A reset (R300): every piece of the core's state takes its reset value and a pending command is discarded. What lies outside the core
stays: the host's program, the schedule, what the host has read, and the count of free draws (log 13). -/
def resetTurn (s : State) : State :=
  { State.reset with host := s.host, sched := s.sched, responses := s.responses, draws := s.draws }

/-- Who moves next: the schedule says. When it says nothing more, an enabled ENGINE goes before the host, which is one of the
admitted interleavings and keeps fairness (R312; log 2). -/
def currentTurn (s : State) : Turn :=
  match s.sched with
  | t :: _ => t
  | [] => if s.busy then .engine else .host

/-- One turn of an agent, or a reset. -/
def performTurn (t : Turn) (s : State) : Host.Outcome State Fault Refusal :=
  match t with
  | .host => .next (hostTurn s)
  | .engine => engineTurn s
  | .reset => .next (resetTurn s)

/-- The state with the command word `c` about to run. A word that spells a command stands accepted in `PEND`, where the ENGINE takes its
next command from, and the ENGINE is next. Any other word is about to be written to CMD by the host, which rejects it (R115; log 12). -/
def placeCommand (c : Option Instr) (w : Nat) (s : State) : State :=
  match c with
  | some i => (s.setPend i).setSched (.engine :: s.sched)
  | none => (s.setHost (.write (Config.coreBase + 0x300) .w4 (BitVec.ofNat 64 w) :: s.host)).setSched (.host :: s.sched)

end Sys2Proof.Machine
end

