-- ==== Sys2Proof/Machine/Step.lean ====
section
/-! DEFINITION. One step of the machine: the next turn of the interleaving (R86), and the place a command is taken from. -/

namespace Sys2Proof.Machine

/-- One step: the turn that is due is taken off the schedule and performed (R16, R86, R300, R312). -/
def step (s : State) : Host.Outcome State Fault Refusal :=
  performTurn (currentTurn s) (s.setSched s.sched.tail)

/-- `s` with the command word `w` placed so that the very next step runs it (log 12). -/
def State.withFetchWord (s : State) (nbits w : Nat) : State :=
  placeCommand (decodeTableWord nbits w) (w % 2 ^ nbits) s

end Sys2Proof.Machine
end

