-- ==== Sys2Proof/Machine/Hash.lean ====
section
/-! DEFINITION. The hash function (R243), the pseudo-instructions of the host notation (R119) and the host driver (R245), as the list of
operations the host performs. -/

namespace Sys2Proof.Machine

/-- `hash(M)` (R243): the sponge over the padded blocks, then squeeze. -/
def hashMessage (M : List Byte) : Digest := squeeze ((pad M).foldl (fun A B => keccakF (absorb A B)) zeroLanes)

/-- `rd.W off` (R118): offsets are window offsets. -/
def rd (w : Width) (off : Nat) : HostOp := .read (Config.coreBase + off) w

/-- `wr.W off, val` (R118). -/
def wr (w : Width) (off : Nat) (v : BitVec 64) : HostOp := .write (Config.coreBase + off) w v

/-- A command mnemonic in a host program: `wr.4 0x300, <command word>` (R117, R119). -/
def command (i : Instr) : HostOp := wr .w4 0x300 ((encode i).setWidth 64)

/-- `clrerr` (R119). -/
def clrerr : HostOp := wr .w4 0x308 0x00000004

/-- `ldblk n, b[0..n-1]` (R119): whole lanes first, then the remaining bytes one by one. -/
def ldblk (n : Nat) (b : List Byte) : List HostOp :=
  (List.range (n / 8)).map (fun i => wr .w8 (0x100 + 8 * i) (laneOfBytes fun k => b.getD (8 * i + k) 0)) ++
  (List.range (n % 8)).map (fun m => wr .w1 (0x100 + (8 * (n / 8) + m)) ((b.getD (8 * (n / 8) + m) 0).setWidth 64))

/-- `rddig -> d` (R119): the four 8-byte reads. -/
def rddig : List HostOp := (List.range 4).map fun i => rd .w8 (0x200 + 8 * i)

/-- `block`: ABSP, wait (R119). -/
def blockStep : List HostOp := [command .absp, .wait]

/-- `final r`: PAD r, wait, ABSP, wait, SQUEEZE, wait (R119). -/
def finalStep (r : Nat) : List HostOp :=
  [command (.pad (BitVec.ofNat 8 r)), .wait, command .absp, .wait, command .squeeze, .wait]

/-- The part of the driver that loads and absorbs the full blocks (R245). -/
def driverBlocks (M : List Byte) : List HostOp :=
  (List.range (M.length / 136)).flatMap fun k => ldblk 136 (M.drop (136 * k)) ++ blockStep

/-- `HashDriver(M)` (R245): the host's operations up to and with the last read of `rddig`. Its test of `st` and its result
`d` are `Observation.digest` (Machine/DriverRun.lean). -/
def driver (M : List Byte) : List HostOp :=
  [clrerr, .wait, command .init, .wait] ++ driverBlocks M ++
  ldblk (M.length % 136) (M.drop (136 * (M.length / 136))) ++ finalStep (M.length % 136) ++
  [rd .w4 0x308] ++ rddig

end Sys2Proof.Machine
end

