-- ==== Sys2Proof/Machine/DriverRun.lean ====
section
/-! DEFINITION. The end of the host driver (spec/44_driver.md): what it takes from its last reads, its test of STATUS and the digest it
returns (R245), and which runs have one (R247). -/

namespace Sys2Proof.Machine

/-- What a run of the driver observes: the STATUS word `st` and the 32 bytes `d` (R247). -/
structure Observation where
  st : BitVec 64
  d : Digest
  deriving DecidableEq, Repr

/-- `rddig -> d` (R119): `d[8i .. 8i+7] = bytes(t)` for the four words read, `t0` first. -/
def digestOfWords (t0 t1 t2 t3 : BitVec 64) : Digest :=
  Vector.ofFn fun j => byteOf ([t0, t1, t2, t3].getD (j.val / 8) 0) (j.val % 8)

/-- `rd.4 0x308 -> st; rddig -> d` (R245): the last five reads, `responses` holding the newest first; none before five reads. -/
def observeReads : List (BitVec 64) → Option Observation
  | t3 :: t2 :: t1 :: t0 :: st :: _ => some { st := st, d := digestOfWords t0 t1 t2 t3 }
  | _ => none

/-- `if st[2] == 1 or st[1] == 0: fail` (R245): an interface error happened, or `DIG` is not valid. -/
def Observation.fails (o : Observation) : Bool := o.st.getLsbD 2 || !o.st.getLsbD 1

/-- `return d` (R245): the digest the observation produces, none where the driver fails (R247). -/
def Observation.digest (o : Observation) : Option Digest := if o.fails then none else some o.d

/-- The driver's observation in a state of its run (R247): none while an operation is left to perform or the core is not idle. -/
def State.observation (s : State) : Option Observation :=
  if s.host = [] ∧ s.pend = none then observeReads s.responses else none

/-- At most `k` steps, up to the first state with an observation; none where there is no such state. `base` is what the host had read when
the run began. A reset during the run leaves it without a result (R247: "the run has no result"). DESIGN CHOICE (log 25): R247 does not say
where a run begins for a reset; here it begins with the first access of its first `wait`, as R246's condition does, that is with its first
read, so that an earlier reset leaves the result alone. -/
def observeRun (base : List (BitVec 64)) : Nat → State → Option Observation
  | 0, s => s.observation
  | k + 1, s =>
    match s.observation with
    | some o => some o
    | none =>
      if currentTurn s = .reset ∧ s.responses ≠ base then none
      else match step s with
        | .next t => observeRun base k t
        | .fault _ => none
        | .refused _ => none

/-- A run of the driver for `M` from `s`, of at most `k` steps: its observation, none while it still waits (R247). -/
def runDriver (M : List Byte) (k : Nat) (s : State) : Option Observation := observeRun s.responses k (s.setHost (driver M))

/-- What the driver returns within `k` steps (R245, R247): none while it still waits, and none where it fails. -/
def driverResult (M : List Byte) (k : Nat) (s : State) : Option Digest := (runDriver M k s).bind Observation.digest

end Sys2Proof.Machine
end

