-- ==== Sys2Proof/Safety.lean ====
section
/-! DEFINITION. What counts as a good state, and the spec's tables of errors written from its text and not from the meanings, in the terms
the claims use. -/

namespace Sys2Proof.Machine

/-- The state is consistent: ERRCODE names an error exactly when ERR is 1 (R42, R271); a pending command is one that acceptance lets
through (R48, R115); and DVALID = 1 means that DIG is the squeeze of the present state (R40, R221). -/
structure State.Consistent (s : State) : Prop where
  errCode_iff : s.errCode.isSome = s.err
  pend_wellFormed : ∀ i, s.pend = some i → i.WellFormed
  digest_valid : s.dvalid = true → s.dig = squeeze s.lanes

/-- `k` steps, stopping at the first fault or refusal. -/
def run : Nat → State → Host.Outcome State Fault Refusal
  | 0, s => .next s
  | k + 1, s =>
    match step s with
    | .next t => run k t
    | .fault r => .fault r
    | .refused r => .refused r

/-- Nothing in the core is under way and the outside world has nothing more to do. -/
def State.Finished (s : State) : Prop := s.pend = none ∧ s.host = [] ∧ s.sched = []

/-- R246's condition on resets for a run of the driver from `s`: none from its first `wait` to its last read. A reset may come only while the
host has read nothing yet, since the first access of the first `wait` is the driver's first read, or when no operation is left. -/
def State.NoResetWithin (s : State) : Prop :=
  ∀ m u, run m s = .next u → currentTurn u = .reset → u.responses = s.responses ∨ u.host = []

/-- `s` after `raise Err(e)` and nothing else (R272): ERR is 1, and ERRCODE is `e` unless an earlier error still stands. -/
def State.recorded (s : State) (e : IfaceError) : State :=
  { s with err := true, errCode := if s.err then s.errCode else some e }

/-- The error with which `IssueCommand(c)` rejects a word, in the order of R115; the fields are read by division (R110). -/
def commandError (s : State) (c : Word) : Option IfaceError :=
  if s.pend ≠ none then some .busyViolation
  else if c.toNat % 256 > 6 then some .illegalOpcode
  else if c.toNat / 65536 ≠ 0 then some .reservedNonzero
  else if c.toNat % 256 ≠ 5 ∧ c.toNat / 256 % 256 ≠ 0 then some .reservedNonzero
  else if c.toNat % 256 = 5 ∧ c.toNat / 256 % 256 > 135 then some .badArg
  else none

/-- The offsets of the data regions STATE and BLOCK (R49). -/
abbrev writableData (o : Nat) : Prop := o ≤ 0x0C7 ∨ (0x100 ≤ o ∧ o ≤ 0x187)

/-- The offsets of the control registers CMD, STATUS and BLOCK_COUNT (R49). -/
abbrev controlOffset (o : Nat) : Prop :=
  (0x300 ≤ o ∧ o ≤ 0x303) ∨ (0x308 ≤ o ∧ o ≤ 0x30B) ∨ (0x310 ≤ o ∧ o ≤ 0x313)

/-- The reserved offsets: every offset the register map does not list (R49, R81). -/
abbrev reservedOffset (o : Nat) : Prop := ¬ writableData o ∧ ¬ (0x200 ≤ o ∧ o ≤ 0x21F) ∧ ¬ controlOffset o

/-- The one error an access records, the first of the list of R275 whose check fails; `v` is the value of a write and `none` for a
read. -/
def accessError (s : State) (o : Nat) (w : Width) (v : Option (BitVec 64)) : Option IfaceError :=
  if o % w.bytes ≠ 0 then some .badAccess
  else if reservedOffset o then some .badAccess
  else if controlOffset o ∧ w.bytes ≠ 4 then some .badAccess
  else match v with
    | none => none
    | some v =>
      if (0x200 ≤ o ∧ o ≤ 0x21F) ∨ (0x310 ≤ o ∧ o ≤ 0x313) then some .badAccess
      else if writableData o ∧ s.pend ≠ none then some .busyViolation
      else if o = 0x300 then commandError s (v.extractLsb' 0 32)
      else none

/-- The host is about to perform an accepted write into the offsets `lo` to `hi`, both included: its turn, the core idle, the access
aligned. -/
def State.AcceptedWrite (s : State) (lo hi : Nat) : Prop :=
  currentTurn s = .host ∧ s.pend = none ∧
    ∃ o w v ops, s.host = .write (Config.coreBase + o) w v :: ops ∧ o % w.bytes = 0 ∧ lo ≤ o ∧ o + w.bytes ≤ hi + 1

/-- The ENGINE is about to complete the command `i`. -/
def State.Completes (s : State) (i : Instr) : Prop := currentTurn s = .engine ∧ s.pend = some i

end Sys2Proof.Machine
end

