-- ==== Sys2Proof/Certificates/Slice0/Obligations.lean ====
section
/-! DEFINITION. The statements about the model, drawn from the numbered rules of spec/. Each docstring names the rule or section it
formalises; a clause that rests on a choice of the model names its log entry. -/

open Sys2Proof Sys2Proof.Machine

/-! ## Command words -/

/-- Decoding an encoded command gives it back, for every command and every argument the encoding admits
(spec/30_encoding.md sections 1 to 3). -/
def Obligations.EncodedCommandDecodes : Prop :=
  ∀ i : Instr, i.WellFormed → decode (encode i) = .ok i

/-- A word that decodes is the encoding of what it decodes to, and that command is well-formed: no bit of a word is ignored. The legal
words are the 6 words `0x0000000n` and the 136 words `0x0000rr05`; every other word is rejected (spec/30_encoding.md section 4,
derived there). -/
def Obligations.LegalWordsAreExactlyTheTable : Prop :=
  (∀ (c : Word) (i : Instr), decode c = .ok i → i.WellFormed ∧ encode i = c) ∧
  ∀ c : Word, (∃ i, decode c = .ok i) ↔
    c.toNat ∈ [0, 1, 2, 3, 4, 6] ∨ ∃ r, r ≤ 135 ∧ c.toNat = 5 + 256 * r

/-- Words written out from the tables of spec/30_encoding.md decode to the commands they stand for, and spec/95_test_vectors.md's
rejected words to their errors. -/
def Obligations.SpecWordsDecode : Prop :=
  decode 0x00000000 = .ok .nop ∧ decode 0x00000001 = .ok .init ∧ decode 0x00000002 = .ok .absorb ∧
  decode 0x00000003 = .ok .permute ∧ decode 0x00000004 = .ok .absp ∧ decode 0x00000305 = .ok (.pad 3) ∧
  decode 0x00008705 = .ok (.pad 135) ∧ decode 0x00000006 = .ok .squeeze ∧
  decode 0x00008805 = .error .badArg ∧ decode 0x00010305 = .error .reservedNonzero ∧
  decode 0x00000102 = .error .reservedNonzero ∧ decode 0x0001FF07 = .error .illegalOpcode ∧
  decode 0x00FF0005 = .error .reservedNonzero

/-- The assembler (spec/30_encoding.md section 5): the word of each mnemonic, PAD's argument 0..135, and its refusals. -/
def Obligations.AssemblerSpellsCommandWords : Prop :=
  assemble ['N', 'O', 'P'] = some 0x00000000 ∧ assemble ['I', 'N', 'I', 'T'] = some 0x00000001 ∧
  assemble ['A', 'B', 'S', 'O', 'R', 'B'] = some 0x00000002 ∧
  assemble ['P', 'E', 'R', 'M', 'U', 'T', 'E'] = some 0x00000003 ∧ assemble ['A', 'B', 'S', 'P'] = some 0x00000004 ∧
  assemble ['P', 'A', 'D', ' ', '3'] = some 0x00000305 ∧ assemble ['P', 'A', 'D', ' ', '1', '3', '5'] = some 0x00008705 ∧
  assemble ['P', 'A', 'D', ' ', '0', 'x', '8', '7'] = some 0x00008705 ∧
  assemble ['S', 'Q', 'U', 'E', 'E', 'Z', 'E'] = some 0x00000006 ∧
  (∀ r, r ≤ 135 → ∃ i, assembleCommand ['P', 'A', 'D'] (some r) = some i ∧ (encode i).toNat = 5 + 256 * r) ∧
  (∀ r, 135 < r → assembleCommand ['P', 'A', 'D'] (some r) = none) ∧
  ∀ m r, m ≠ ['P', 'A', 'D'] → assembleCommand m (some r) = none

/-- Acceptance (R115): what a 4-byte write of a word to CMD does. The checks come in their order; a rejected word records its error and changes nothing else, an accepted one changes
nothing but PEND, which holds its OP and ARG. -/
def Obligations.IssueCommandChecksInOrder : Prop :=
  ∀ (c : Word) (s : State),
    (∀ v : BitVec 64, v.extractLsb' 0 32 = c → winWrite 0x300 .w4 v s = issueCommand c s) ∧
    (∀ e, commandError s c = some e → issueCommand c s = s.recorded e) ∧
    (commandError s c = none →
      ∃ i : Instr, i.WellFormed ∧ i.opcode.toNat = c.toNat % 256 ∧ i.arg.toNat = c.toNat / 256 % 256 ∧
        issueCommand c s = { s with pend := some i } ∧ (issueCommand c s).busy = true)

/-! ## Steps -/

/-- A step runs the pending command: when the ENGINE is due, the step is `exec` of the command in PEND, with its turn taken off the
schedule (spec/10_state.md section 5; the schedule is the model's own, log 1). -/
def Obligations.StepRunsPendingCommand : Prop :=
  ∀ (s : State) (i : Instr), s.Completes i → step s = exec i { s with sched := s.sched.tail }

/-- A word placed as the next command runs in the very next step (log 12, the model's choice). -/
def Obligations.PlacedWordRunsNext : Prop :=
  ∀ (s : State) (i : Instr), i.WellFormed →
    step (s.withFetchWord 32 (encode i).toNat) = exec i { s with pend := some i }

/-- A command word written to CMD while the core is idle runs: acceptance in the host's step, its whole effect in the ENGINE's next step
(spec/30_encoding.md section 3, spec/10_state.md section 5). -/
def Obligations.CommandWrittenToCmdRuns : Prop :=
  ∀ (s : State) (i : Instr) (v : BitVec 64) (ops : List HostOp) (ts : List Turn),
    i.WellFormed → v.extractLsb' 0 32 = encode i → s.pend = none →
    s.sched = .host :: .engine :: ts → s.host = .write (Config.coreBase + 0x300) .w4 v :: ops →
    run 2 s = exec i { s with host := ops, sched := ts, pend := some i }

/-- A host step performs one access of the window at `CORE_BASE` (spec/20_memory.md section 1, spec/00_scope.md section 6): a write is
`WinWrite` at the offset, a read is `WinRead` with its value delivered to the host. -/
def Obligations.HostStepAccessesWindow : Prop :=
  ∀ (s : State) (o : Nat) (w : Width) (ops : List HostOp), currentTurn s = .host → o < 0x400 →
    let q : State := { s with host := ops, sched := s.sched.tail }
    (∀ v, s.host = .write (Config.coreBase + o) w v :: ops → step s = .next (winWrite o w v q)) ∧
    (s.host = .read (Config.coreBase + o) w :: ops →
      step s = .next { (winRead o w q).2 with responses := (winRead o w q).1 :: (winRead o w q).2.responses })

/-- An access outside the window has no effect on any state of the core (spec/20_memory.md section 1). That a read there delivers no
value to the host, so that the model's own `responses` stays too, is the model's choice (log 17). -/
def Obligations.AccessOutsideWindowHasNoEffect : Prop :=
  ∀ (s : State) (addr : Nat) (w : Width) (v : BitVec 64) (ops : List HostOp), currentTurn s = .host →
    (addr < Config.coreBase ∨ Config.coreBase + 0x400 ≤ addr) →
    (s.host = .write addr w v :: ops ∨ s.host = .read addr w :: ops) →
    step s = .next { s with host := ops, sched := s.sched.tail }

/-- The polling loop (spec/30_encoding.md section 5, `wait`): each poll reads STATUS; the loop goes on while it shows BUSY = 1 and ends at
the first poll that shows 0. -/
def Obligations.WaitPollsUntilIdle : Prop :=
  ∀ (s : State) (ops : List HostOp), currentTurn s = .host → s.host = .wait :: ops →
    ∃ st : BitVec 64, (st.getLsbD 0 = true ↔ s.pend ≠ none) ∧ (winRead 0x308 .w4 s).1 = st ∧
      step s = .next { s with host := (if st.getLsbD 0 then .wait :: ops else ops), sched := s.sched.tail,
                              responses := st :: s.responses }

/-! ## Reset -/

/-- Every piece of state is 0 after reset and PEND is none (R50). -/
def Obligations.ResetLeavesEveryBitZero : Prop :=
  (∀ x y, laneAt State.reset.lanes x y = 0) ∧ (∀ j, blockByte State.reset.buf j = 0) ∧
  (∀ j, digestByte State.reset.dig j = 0) ∧ State.reset.busy = false ∧ State.reset.dvalid = false ∧
  State.reset.err = false ∧ errCodeBits State.reset.errCode = 0 ∧ statusWord State.reset = 0 ∧
  State.reset.blockCount = 0 ∧ State.reset.pend = none

/-- A reset can be the next event in any state and sets every piece of the core's state to its reset value in one step; a pending command
is discarded (R300). -/
def Obligations.ResetTurnDiscardsEverything : Prop :=
  ∀ s : State, currentTurn s = .reset → ∃ t, step s = .next t ∧
    (∀ x y, laneAt t.lanes x y = 0) ∧ (∀ j, blockByte t.buf j = 0) ∧ (∀ j, digestByte t.dig j = 0) ∧
    t.busy = false ∧ t.dvalid = false ∧ t.err = false ∧ t.errCode = none ∧ t.blockCount = 0 ∧ t.pend = none

/-! ## The commands: what each completion does, and that it does nothing else -/

/-- NOP completes with no effect but BUSY falling (spec/44_driver.md section 1). -/
def Obligations.NopCompletes : Prop :=
  ∀ s : State, exec .nop s = .next { s with pend := none }

/-- INIT zeroes the state, the buffer, the digest, the counter and DVALID, and leaves ERR and ERRCODE (spec/44_driver.md section 1). -/
def Obligations.InitCompletes : Prop :=
  ∀ s : State, ∃ t, exec .init s = .next t ∧
    (∀ x y, laneAt t.lanes x y = 0) ∧ (∀ j, blockByte t.buf j = 0) ∧ (∀ j, digestByte t.dig j = 0) ∧
    t.blockCount = 0 ∧ t.dvalid = false ∧
    t = { s with lanes := t.lanes, buf := t.buf, dig := t.dig, blockCount := 0, dvalid := false, pend := none }

/-- ABSORB XORs the 17 block lanes into the rate lanes, counts the block modulo 2^32, clears DVALID and changes nothing else
(spec/41_absorber.md section 2). -/
def Obligations.AbsorbCompletes : Prop :=
  ∀ s : State, ∃ t, exec .absorb s = .next t ∧
    (∀ x y, x < 5 → y < 5 → laneAt t.lanes x y =
      if x + 5 * y ≤ 16 then laneAt s.lanes x y ^^^ laneOfBytes (fun k => blockByte s.buf (8 * (x + 5 * y) + k))
      else laneAt s.lanes x y) ∧
    t.blockCount.toNat = (s.blockCount.toNat + 1) % 2 ^ 32 ∧
    t = { s with lanes := t.lanes, blockCount := t.blockCount, dvalid := false, pend := none }

/-- PERMUTE applies the 24 rounds to the state, clears DVALID and changes nothing else (spec/42_permuter.md sections 1 and 5). -/
def Obligations.PermuteCompletes : Prop :=
  ∀ s : State, ∃ A : Nat → Lanes, A 0 = s.lanes ∧ (∀ i, i < 24 → A (i + 1) = iota (chi (rhoPi (theta (A i)))) i) ∧
    exec .permute s = .next { s with lanes := A 24, dvalid := false, pend := none }

/-- ABSP absorbs the block and applies the 24 rounds to what the absorption wrote, counts the block, clears DVALID and changes nothing
else (spec/44_driver.md section 1). -/
def Obligations.AbspCompletes : Prop :=
  ∀ s : State, ∃ A : Nat → Lanes,
    (∀ x y, x < 5 → y < 5 → laneAt (A 0) x y =
      if x + 5 * y ≤ 16 then laneAt s.lanes x y ^^^ laneOfBytes (fun k => blockByte s.buf (8 * (x + 5 * y) + k))
      else laneAt s.lanes x y) ∧
    (∀ i, i < 24 → A (i + 1) = iota (chi (rhoPi (theta (A i)))) i) ∧
    ∃ n : BitVec 32, n.toNat = (s.blockCount.toNat + 1) % 2 ^ 32 ∧
      exec .absp s = .next { s with lanes := A 24, blockCount := n, dvalid := false, pend := none }

/-- PAD `r` keeps the `r` bytes before it, zeroes the rest and sets the two pad bytes, which fall into one byte, 0x86, when `r` = 135;
it changes nothing else (spec/40_padder.md section 2). -/
def Obligations.PadCompletes : Prop :=
  ∀ (s : State) (r : BitVec 8), r.toNat ≤ 135 → ∃ t, exec (.pad r) s = .next t ∧
    (∀ j, j < 136 → blockByte t.buf j =
      if j < r.toNat then blockByte s.buf j
      else if j = r.toNat then (if j = 135 then 0x86 else 0x06)
      else if j = 135 then 0x80 else 0x00) ∧
    t = { s with buf := t.buf, pend := none }

/-- SQUEEZE copies lanes `S[0][0]` to `S[3][0]`, least significant byte first, to the digest, sets DVALID and changes nothing else
(spec/43_squeezer.md section 2). -/
def Obligations.SqueezeCompletes : Prop :=
  ∀ s : State, ∃ t, exec .squeeze s = .next t ∧
    (∀ i k, i < 4 → k < 8 → digestByte t.dig (8 * i + k) = byteOf (laneAt s.lanes i 0) k) ∧
    t = { s with dig := t.dig, dvalid := true, pend := none }

/-- A PAD argument above 135 is no command. The meaning refuses it by name (log 11, the model's choice); acceptance never lets one
through: the command that any word leaves in PEND of an idle core is well-formed (spec/30_encoding.md section 3). -/
def Obligations.IllFormedPadIsRefused : Prop :=
  (∀ (s : State) (r : BitVec 8), 135 < r.toNat → exec (.pad r) s = .refused .illFormedCommand) ∧
  ∀ (s : State) (c : Word) (i : Instr), s.pend = none → (issueCommand c s).pend = some i →
    i.WellFormed ∧ ∀ r, i = .pad r → r.toNat ≤ 135

/-- ABSP equals ABSORB then PERMUTE (spec/44_driver.md section 1, derived there). -/
def Obligations.AbspIsAbsorbThenPermute : Prop :=
  ∀ s : State, ∃ m, exec .absorb s = .next m ∧ exec .absp s = exec .permute m

/-- After INIT nothing of an earlier hash is left: two cores whose only differences are in what INIT writes come out equal
(spec/44_driver.md section 2, "no hidden state leaks between calls"). -/
def Obligations.InitForgetsEarlierHash : Prop :=
  ∀ s t : State, s.err = t.err → s.errCode = t.errCode → s.host = t.host → s.sched = t.sched →
    s.responses = t.responses → s.draws = t.draws → exec .init s = exec .init t

/-! ## The Permuter -/

/-- Bit `j` of `rotl64(v, n)` is bit `(j - n) mod 64` of `v` (spec/00_scope.md section 5). -/
def Obligations.RotationMovesBits : Prop :=
  ∀ (v : Lane) (n j : Nat), n < 64 → j < 64 → (rotl64 v n).getLsbD j = v.getLsbD ((j + (64 - n)) % 64)

/-- Theta (R182): every lane gets the parity of the column before and the rotated parity of the column after, both of the input. -/
def Obligations.ThetaMixesColumnParities : Prop :=
  ∀ (A : Lanes) (x y : Nat), x < 5 → y < 5 →
    let C := fun x => laneAt A x 0 ^^^ laneAt A x 1 ^^^ laneAt A x 2 ^^^ laneAt A x 3 ^^^ laneAt A x 4
    laneAt (theta A) x y = laneAt A x y ^^^ (C ((x + 4) % 5) ^^^ rotl64 (C ((x + 1) % 5)) 1)

/-- Rho and pi (spec/42_permuter.md section 2): every lane is rotated by its offset and moved as the table says, every place is written
once; read backwards it is the standard's `A'[x][y] = A[(x+3y) mod 5][x]`. -/
def Obligations.RhoPiMovesEveryLane : Prop :=
  ∀ A : Lanes,
    (∀ x y, x < 5 → y < 5 → laneAt (rhoPi A) y ((2 * x + 3 * y) % 5) = rotl64 (laneAt A x y) (rotOffset x y)) ∧
    (∀ x y, x < 5 → y < 5 →
      laneAt (rhoPi A) x y = rotl64 (laneAt A ((x + 3 * y) % 5) x) (rotOffset ((x + 3 * y) % 5) x)) ∧
    ∀ i, i < 25 →
      let d := ([0, 10, 20, 5, 15] ++ [16, 1, 11, 21, 6] ++ [7, 17, 2, 12, 22] ++ [23, 8, 18, 3, 13] ++ [14, 24, 9, 19, 4]).getD i 0
      laneAt (rhoPi A) (d % 5) (d / 5) = rotl64 (laneAt A (i % 5) (i / 5)) (rotOffset (i % 5) (i / 5))

/-- Chi (R184): every lane reads three lanes of its row of the input. -/
def Obligations.ChiCombinesRows : Prop :=
  ∀ (B : Lanes) (x y : Nat), x < 5 → y < 5 →
    laneAt (chi B) x y = laneAt B x y ^^^ (~~~ laneAt B ((x + 1) % 5) y &&& laneAt B ((x + 2) % 5) y)

/-- Iota (R185): the round constant is XOR-ed into lane (0,0) alone. -/
def Obligations.IotaChangesLaneZeroOnly : Prop :=
  ∀ (A : Lanes) (i x y : Nat), x < 5 → y < 5 →
    laneAt (iota A i) x y = if x = 0 ∧ y = 0 then laneAt A 0 0 ^^^ roundConstant i else laneAt A x y

/-- The tables: `ROT` as the table of spec/42_permuter.md section 3 has it, row by row, and both tables as their generators give them;
only bits 0, 1, 3, 7, 15, 31 and 63 of a round constant can be 1. -/
def Obligations.ConstantTablesRegenerate : Prop :=
  ((List.range 5).map (rotOffset 0) = [0, 36, 3, 41, 18] ∧ (List.range 5).map (rotOffset 1) = [1, 44, 10, 45, 2] ∧
    (List.range 5).map (rotOffset 2) = [62, 6, 43, 15, 61] ∧ (List.range 5).map (rotOffset 3) = [28, 55, 25, 21, 56] ∧
    (List.range 5).map (rotOffset 4) = [27, 20, 39, 8, 14]) ∧
  (∀ i, i < 25 → generatedRotations.getD i 0 = rotOffset (i % 5) (i / 5)) ∧
  (∀ i, i < 24 → roundConstant i = generatedRoundConstant i) ∧
  ∀ i, i < 24 → roundConstant i &&& ~~~ (0x800000008000808B : Lane) = 0

/-- `KeccakF` is a permutation of the 2^1600 states (spec/42_permuter.md section 4, a property the spec supplies from general
knowledge). -/
def Obligations.KeccakFIsAPermutation : Prop := Function.Bijective keccakF

/-! ## The Padder, the Absorber, the Squeezer -/

/-- `pad(M)` (spec/40_padder.md section 1): `L div 136 + 1` blocks, the full ones unchanged, the last one the tail, zero fill and the two
pad bytes. -/
def Obligations.PaddingBlocks : Prop :=
  ∀ M : List Byte, (pad M).length = M.length / 136 + 1 ∧
    (∀ k j, k < M.length / 136 → j < 136 →
      ∃ B b, (pad M)[k]? = some B ∧ M[136 * k + j]? = some b ∧ blockByte B j = b) ∧
    ∃ F, (pad M).getLast? = some F ∧ ∀ j, j < 136 → blockByte F j =
      if j < M.length % 136 then M.getD (136 * (M.length / 136) + j) 0
      else if j = M.length % 136 then (if j = 135 then 0x86 else 0x06)
      else if j = 135 then 0x80 else 0x00

/-- The padding scheme is unambiguous: no two messages have the same blocks (spec/40_padder.md section 1). -/
def Obligations.PaddingIsInjective : Prop := ∀ M N : List Byte, pad M = pad N → M = N

/-- PAD implements the final block: when the host has written the message tail into `BUF`, PAD `L mod 136` makes `BUF` the last block of
`pad(M)`, whatever the buffer held behind the tail (spec/40_padder.md section 2, derived there). -/
def Obligations.PadMakesTheFinalBlock : Prop :=
  ∀ (M : List Byte) (s : State),
    (∀ j, j < M.length % 136 → blockByte s.buf j = M.getD (136 * (M.length / 136) + j) 0) →
    ∃ t, exec (.pad (BitVec.ofNat 8 (M.length % 136))) s = .next t ∧ (pad M).getLast? = some t.buf

/-- The absorb function and its properties (spec/41_absorber.md section 1; that bytes meet bytes and that absorbing twice cancels out are
derived there): block lane `i` goes to `S[i mod 5][i div 5]` for `i` in 0..16; the capacity
lanes pass through; byte `j` of the block meets exactly byte `j` of the state; absorbing a block twice cancels out. -/
def Obligations.AbsorbXorsRateLanes : Prop :=
  ∀ (A : Lanes) (B : Block),
    (∀ i, i < 17 → laneAt (absorb A B) (i % 5) (i / 5) =
      laneAt A (i % 5) (i / 5) ^^^ laneOfBytes (fun k => blockByte B (8 * i + k))) ∧
    (∀ x y, x < 5 → y < 5 → ((y = 3 ∧ 2 ≤ x) ∨ y = 4) → laneAt (absorb A B) x y = laneAt A x y) ∧
    (∀ j, j < 136 → stateByte (absorb A B) j = stateByte A j ^^^ blockByte B j) ∧
    absorb (absorb A B) B = A

/-- The squeeze function (spec/43_squeezer.md section 1): the 32 bytes are those of the first four lanes, and no other lane reaches the
digest (derived there). -/
def Obligations.SqueezeReadsFourLanes : Prop :=
  ∀ A : Lanes, (∀ i k, i < 4 → k < 8 → digestByte (squeeze A) (8 * i + k) = byteOf (laneAt A (i % 5) (i / 5)) k) ∧
    ∀ B : Lanes, (∀ i, i < 4 → laneAt A i 0 = laneAt B i 0) → squeeze A = squeeze B

/-! ## The register window -/

/-- The byte map of the window (spec/20_memory.md section 2): STATE, BLOCK and DIGEST. -/
def Obligations.WindowByteMap : Prop :=
  ∀ s : State,
    (∀ i k, i < 25 → k < 8 → winByte s (8 * i + k) = byteOf (laneAt s.lanes (i % 5) (i / 5)) k) ∧
    (∀ j, j < 136 → winByte s (0x100 + j) = blockByte s.buf j) ∧
    ∀ j, j < 32 → winByte s (0x200 + j) = digestByte s.dig j

/-- A read of a data region of an idle core returns its bytes, least significant first, zero-extended, and changes nothing
(spec/20_memory.md section 3). -/
def Obligations.DataReadReturnsBytes : Prop :=
  ∀ (s : State) (o : Nat) (w : Width), s.pend = none → o % w.bytes = 0 →
    (o + w.bytes ≤ 0x0C8 ∨ (0x100 ≤ o ∧ o + w.bytes ≤ 0x188) ∨ (0x200 ≤ o ∧ o + w.bytes ≤ 0x220)) →
    (winRead o w s).2 = s ∧
    ∀ k, k < 8 → byteOf (winRead o w s).1 k = if k < w.bytes then winByte s (o + k) else 0

/-- Reads of the control registers, busy or idle (spec/20_memory.md section 3): CMD reads 0, BLOCK_COUNT its value, STATUS its fields
with every reserved bit 0; no read changes anything. -/
def Obligations.ControlReads : Prop :=
  ∀ s : State, winRead 0x300 .w4 s = (0, s) ∧
    (∃ c : BitVec 64, winRead 0x310 .w4 s = (c, s) ∧ c.toNat = s.blockCount.toNat) ∧
    ∃ st : BitVec 64, winRead 0x308 .w4 s = (st, s) ∧
      (st.getLsbD 0 = true ↔ s.pend ≠ none) ∧ st.getLsbD 1 = s.dvalid ∧ st.getLsbD 2 = s.err ∧
      (∀ j, 3 ≤ j → j < 8 → st.getLsbD j = false) ∧
      (∀ j, j < 8 → st.getLsbD (8 + j) = (errCodeBits s.errCode).getLsbD j) ∧
      ∀ j, 16 ≤ j → st.getLsbD j = false

/-- A write to STATE of an idle core changes the addressed bytes alone and clears DVALID (spec/20_memory.md section 3). -/
def Obligations.StateWriteChangesItsBytes : Prop :=
  ∀ (s : State) (o : Nat) (w : Width) (v : BitVec 64), s.pend = none → o % w.bytes = 0 → o + w.bytes ≤ 0x0C8 →
    (∀ a, winByte (winWrite o w v s) a = if o ≤ a ∧ a < o + w.bytes then byteOf v (a - o) else winByte s a) ∧
    winWrite o w v s = { s with lanes := (winWrite o w v s).lanes, dvalid := false }

/-- A write to BLOCK of an idle core changes the addressed bytes alone and nothing else (spec/20_memory.md section 3). -/
def Obligations.BlockWriteChangesItsBytes : Prop :=
  ∀ (s : State) (o : Nat) (w : Width) (v : BitVec 64), s.pend = none → o % w.bytes = 0 →
    0x100 ≤ o → o + w.bytes ≤ 0x188 →
    (∀ a, winByte (winWrite o w v s) a = if o ≤ a ∧ a < o + w.bytes then byteOf v (a - o) else winByte s a) ∧
    winWrite o w v s = { s with buf := (winWrite o w v s).buf }

/-- Mixed widths (spec/20_memory.md section 3): a read of any width after a write of any width sees exactly the bytes, new where written
and old elsewhere; with the spec's example. -/
def Obligations.MixedWidthReadSeesBytes : Prop :=
  (∀ (s : State) (o o' : Nat) (w w' : Width) (v : BitVec 64), s.pend = none → o % w.bytes = 0 → o' % w'.bytes = 0 →
    (o + w.bytes ≤ 0x0C8 ∨ (0x100 ≤ o ∧ o + w.bytes ≤ 0x188)) →
    (o' + w'.bytes ≤ 0x0C8 ∨ (0x100 ≤ o' ∧ o' + w'.bytes ≤ 0x188)) →
    ∀ k, k < w'.bytes → byteOf (winRead o' w' (winWrite o w v s)).1 k =
      if o ≤ o' + k ∧ o' + k < o + w.bytes then byteOf v (o' + k - o) else winByte s (o' + k)) ∧
  ∀ s : State, s.pend = none →
    (winRead 0x001 .w1 (winWrite 0x000 .w8 0x0807060504030201 s)).1 = 0x02 ∧
    (winRead 0x006 .w2 (winWrite 0x000 .w8 0x0807060504030201 s)).1 = 0x0807 ∧
    laneAt (winWrite 0x000 .w8 0x0807060504030201 s).lanes 0 0 = 0x0807060504030201

/-- Misaligned accesses (spec/20_memory.md section 3): BAD_ACCESS, nothing else changed, a read returns 0. An aligned access crosses
neither edge of a data region, nor the offset of a control register, nor the end of the window (derived there from the register map). -/
def Obligations.MisalignedAccessIsBadAccess : Prop :=
  (∀ (s : State) (o : Nat) (w : Width) (v : BitVec 64), o % w.bytes ≠ 0 →
    winRead o w s = (0, s.recorded .badAccess) ∧ winWrite o w v s = s.recorded .badAccess) ∧
  ∀ (o : Nat) (w : Width), o % w.bytes = 0 → ∀ b ∈ [0x0C8, 0x100, 0x188, 0x200, 0x220, 0x300, 0x308, 0x310, 0x400],
    o + w.bytes ≤ b ∨ b ≤ o

/-- Reserved offsets (R81): BAD_ACCESS on read and on write, a read returns 0, a write has no effect. -/
def Obligations.ReservedOffsetIsBadAccess : Prop :=
  ∀ (s : State) (o : Nat) (w : Width) (v : BitVec 64), o < 0x400 → reservedOffset o →
    winRead o w s = (0, s.recorded .badAccess) ∧ winWrite o w v s = s.recorded .badAccess

/-- Priority (spec/60_exceptions.md section 3): an access records the first error of the list and has no other effect; an access with no
error on the list records none. -/
def Obligations.AccessErrorsFollowPriority : Prop :=
  ∀ (s : State) (o : Nat) (w : Width), o < 0x400 →
    (∀ e, accessError s o w none = some e → winRead o w s = (0, s.recorded e)) ∧
    (accessError s o w none = none → ∃ n, (winRead o w s).2 = { s with draws := n }) ∧
    ∀ v : BitVec 64,
      (∀ e, accessError s o w (some v) = some e → winWrite o w v s = s.recorded e) ∧
      (accessError s o w (some v) = none → ¬ (o = 0x308 ∧ v.getLsbD 2 = true) →
        (winWrite o w v s).err = s.err ∧ (winWrite o w v s).errCode = s.errCode)

/-- Clearing (R276): a 4-byte write to STATUS with bit 2 set clears ERR and ERRCODE together, busy or idle, and changes nothing else;
with bit 2 clear it changes nothing. Reset clears them; INIT does not. -/
def Obligations.StatusWriteClearsErrors : Prop :=
  (∀ (s : State) (v : BitVec 64), winWrite 0x308 .w4 v s =
    if v.getLsbD 2 then { s with err := false, errCode := none } else s) ∧
  (∀ s t : State, currentTurn s = .reset → step s = .next t → t.err = false ∧ t.errCode = none) ∧
  ∀ s t : State, exec .init s = .next t → t.err = s.err ∧ t.errCode = s.errCode

/-- Data regions while busy (spec/20_memory.md section 4): a read returns some value of its width, records nothing and changes nothing
of the core; a write to STATE or BLOCK is BUSY_VIOLATION and has no effect. The value read is a free one (log 5). -/
def Obligations.BusyDataAccess : Prop :=
  ∀ (s : State) (o : Nat) (w : Width), s.pend ≠ none → o % w.bytes = 0 →
    ((o + w.bytes ≤ 0x0C8 ∨ (0x100 ≤ o ∧ o + w.bytes ≤ 0x188) ∨ (0x200 ≤ o ∧ o + w.bytes ≤ 0x220)) →
      (∀ k, w.bytes ≤ k → k < 8 → byteOf (winRead o w s).1 k = 0) ∧
      (winRead o w s).2 = { s with draws := s.draws + 1 }) ∧
    ((o + w.bytes ≤ 0x0C8 ∨ (0x100 ≤ o ∧ o + w.bytes ≤ 0x188)) →
      ∀ v, winWrite o w v s = s.recorded .busyViolation)

/-! ## Rules of the whole machine -/

/-- The consistency of a state holds at reset. -/
def Obligations.ResetIsConsistent : Prop := State.reset.Consistent

/-- Every step keeps the state consistent: ERRCODE is set exactly when ERR is (spec/10_state.md section 4), a pending command is a legal
one, and DVALID = 1 means that DIG is the squeeze of the present state. -/
def Obligations.StepKeepsConsistent : Prop :=
  ∀ s t : State, s.Consistent → step s = .next t → t.Consistent

/-- No step of a consistent state stops: the completion of an accepted command never fails and records no error, and an interface error
stops nothing (spec/60_exceptions.md sections 1 and 3). -/
def Obligations.StepNeverStops : Prop :=
  ∀ s : State, s.Consistent → ∃ t, step s = .next t ∧
    (currentTurn s = .engine → t.err = s.err ∧ t.errCode = s.errCode)

/-- What can write `S` (spec/10_state.md section 1): the completion of INIT, ABSORB, PERMUTE or ABSP, an accepted host write to STATE,
and reset. -/
def Obligations.WritersOfTheState : Prop :=
  ∀ s t : State, step s = .next t → t.lanes ≠ s.lanes →
    s.Completes .init ∨ s.Completes .absorb ∨ s.Completes .permute ∨ s.Completes .absp ∨
    s.AcceptedWrite 0x000 0x0C7 ∨ currentTurn s = .reset

/-- What can write `BUF` and `DIG` (spec/10_state.md section 2). `BUF`: an accepted host write to BLOCK, the completion of PAD or INIT, and
reset. `DIG`: the completion of SQUEEZE or INIT, and reset; no host access. -/
def Obligations.WritersOfBufferAndDigest : Prop :=
  ∀ s t : State, step s = .next t →
    (t.buf ≠ s.buf →
      (∃ r, s.Completes (.pad r)) ∨ s.Completes .init ∨ s.AcceptedWrite 0x100 0x187 ∨ currentTurn s = .reset) ∧
    (t.dig ≠ s.dig → s.Completes .squeeze ∨ s.Completes .init ∨ currentTurn s = .reset)

/-- BLOCK_COUNT (spec/10_state.md section 4): the completion of ABSORB or ABSP adds 1 modulo 2^32, INIT and reset set it to 0, nothing
else changes it. -/
def Obligations.BlockCountRule : Prop :=
  ∀ s t : State, step s = .next t →
    ((s.Completes .absorb ∨ s.Completes .absp) → t.blockCount.toNat = (s.blockCount.toNat + 1) % 2 ^ 32) ∧
    ((s.Completes .init ∨ currentTurn s = .reset) → t.blockCount = 0) ∧
    (¬ s.Completes .absorb → ¬ s.Completes .absp → ¬ s.Completes .init → currentTurn s ≠ .reset →
      t.blockCount = s.blockCount)

/-- DVALID (R40): set by SQUEEZE; cleared by INIT, ABSORB, PERMUTE, ABSP, an accepted write to STATE and reset; nothing else changes it,
so that NOP, PAD, BLOCK writes and STATUS writes leave it, and so does everything the host does while a command is pending. -/
def Obligations.DvalidRule : Prop :=
  ∀ s t : State, step s = .next t →
    (s.Completes .squeeze → t.dvalid = true) ∧
    ((s.Completes .init ∨ s.Completes .absorb ∨ s.Completes .permute ∨ s.Completes .absp ∨
      s.AcceptedWrite 0x000 0x0C7 ∨ currentTurn s = .reset) → t.dvalid = false) ∧
    (¬ s.Completes .squeeze → ¬ s.Completes .init → ¬ s.Completes .absorb → ¬ s.Completes .permute → ¬ s.Completes .absp →
      ¬ s.AcceptedWrite 0x000 0x0C7 → currentTurn s ≠ .reset → t.dvalid = s.dvalid) ∧
    (s.pend ≠ none → currentTurn s = .host → t.dvalid = s.dvalid)

/-- BUSY (R39): it reads 1 exactly when a command is pending; it rises exactly when the host's write to CMD is accepted; it falls at the
ENGINE step that completes the command, in the step that applies the command's effects, or at reset, and by nothing the host does. -/
def Obligations.BusyRule : Prop :=
  ∀ s t : State, step s = .next t →
    ((winRead 0x308 .w4 s).1.getLsbD 0 = true ↔ s.pend ≠ none) ∧
    (s.pend = none → (t.pend ≠ none ↔ currentTurn s = .host ∧ ∃ v ops,
      s.host = .write (Config.coreBase + 0x300) .w4 v :: ops ∧ commandError s (v.extractLsb' 0 32) = none)) ∧
    (∀ i, s.Completes i → t.pend = none ∧ exec i { s with sched := s.sched.tail } = .next t) ∧
    (s.pend ≠ none → t.pend = none → currentTurn s = .engine ∨ currentTurn s = .reset)

/-- ERRCODE (R42): it holds the code of the first error recorded while ERR was 0 and is 0 when ERR is 0; while ERR is 1 it changes only
when it is cleared, by the host's write to STATUS or by reset. -/
def Obligations.ErrCodeRule : Prop :=
  (errCodeBits (some .illegalOpcode) = 1 ∧ errCodeBits (some .reservedNonzero) = 2 ∧ errCodeBits (some .badArg) = 3 ∧
    errCodeBits (some .busyViolation) = 4 ∧ errCodeBits (some .badAccess) = 5) ∧
  (∀ s : State, s.Consistent → s.err = false → errCodeBits s.errCode = 0) ∧
  (∀ (s : State) (e : IfaceError), s.err = false → (s.raiseErr e).err = true ∧ (s.raiseErr e).errCode = some e) ∧
  ∀ s t : State, step s = .next t → s.err = true →
    (t.err = true ∧ t.errCode = s.errCode) ∨
    (t.err = false ∧ t.errCode = none ∧ (currentTurn s = .reset ∨
      (currentTurn s = .host ∧ ∃ v ops, s.host = .write (Config.coreBase + 0x308) .w4 v :: ops ∧ v.getLsbD 2 = true)))

/-- A pending command is not disturbed by what the host does meanwhile (spec/60_exceptions.md section 3): no access changes the command
or anything it reads or writes. -/
def Obligations.PendingCommandIsUndisturbed : Prop :=
  ∀ s t : State, s.pend ≠ none → currentTurn s = .host → step s = .next t →
    t.pend = s.pend ∧ t.lanes = s.lanes ∧ t.buf = s.buf ∧ t.dig = s.dig ∧ t.blockCount = s.blockCount ∧ t.dvalid = s.dvalid

/-- Progress (spec/70_reset_and_hazards.md section 4): whatever the schedule, after finitely many steps every accepted command has
completed, every `wait` has ended and the host's operations are all performed. The bound counts the model's own turns (log 1), in which an
empty schedule lets the ENGINE go first (log 2), a turn with nothing to do changes nothing (log 8) and a reset leaves the host's program as it
is (log 13). -/
def Obligations.EveryRunEndsIdle : Prop :=
  ∀ s : State, s.Consistent → ∃ t : State,
    run (s.sched.length + 2 * s.host.length + 1) s = .next t ∧ t.Finished

/-- The driver computes the hash (spec/44_driver.md section 3, derived there): from any consistent state, under any schedule with no reset
from the driver's first `wait` to its last read, the host driver ends with the core idle, no error, DVALID = 1, the block count modulo 2^32,
and the last five reads are STATUS = 2 and the four lanes of the digest of `hash(M)`, whatever was pending before. The model's choices: when
the schedule is used up the ENGINE goes first (log 2), and a reset before the first `wait` leaves the host's program as it is (log 13). -/
def Obligations.DriverComputesHash : Prop :=
  ∀ (M : List Byte) (s : State), s.Consistent → s.host = driver M → s.NoResetWithin →
    ∃ (k : Nat) (t : State), run k s = .next t ∧ t.host = [] ∧ t.pend = none ∧
      t.err = false ∧ t.dvalid = true ∧ t.dig = hashMessage M ∧
      t.blockCount.toNat = (M.length / 136 + 1) % 2 ^ 32 ∧
      ∃ (d : Nat → BitVec 64) (older : List (BitVec 64)),
        t.responses = d 3 :: d 2 :: d 1 :: d 0 :: 2 :: older ∧
        ∀ i k, i < 4 → k < 8 → byteOf (d i) k = digestByte (hashMessage M) (8 * i + k)

/-- The driver returns the hash (spec/44_driver.md section 3, derived there): from any consistent state, under any schedule with no reset from
the driver's first `wait` to its last read, every run that is long enough observes `st` = 2 and `d` = `hash(M)`, and returns `d`. The model's
choices are those of log 2 and log 13, and that a reset before the first `wait` is not one during the run (log 25). -/
def Obligations.DriverReturnsHash : Prop :=
  ∀ (M : List Byte) (s : State), s.Consistent → State.NoResetWithin { s with host := driver M } →
    ∃ n, ∀ k, n ≤ k → runDriver M k s = some { st := 2, d := hashMessage M } ∧ driverResult M k s = some (hashMessage M)

/-- End of a run (spec/44_driver.md section 3). A run of the driver has an observation only by ending at the host step that performs the last
read of `rddig`, the core idle, and the observation is the STATUS word and the 32 bytes of its last five reads. Conversely a run that performs
that read, no reset having come since the first `wait`, has its observation from that step on. While an operation is left the run still waits
and has none; a reset that comes once the first `wait` has made an access, while an operation is left, leaves it without a result. It produces
a digest, `d`, exactly when `st` shows ERR = 0 and DVALID = 1. The model's choices: the run begins for a reset with the first access of its
first `wait` (log 25), and a reset before that leaves the host's program and its reads as they are, so that the run goes on (log 13). -/
def Obligations.DriverRunEndsAtLastRead : Prop :=
  ∀ (M : List Byte) (s : State),
    let q : State := { s with host := driver M }
    (∀ k o, runDriver M k s = some o → ∃ (m : Nat) (u t : State), m < k ∧ run m q = .next u ∧
      currentTurn u = .host ∧ u.host = [.read (Config.coreBase + 0x218) .w8] ∧
      step u = .next t ∧ t.host = [] ∧ t.pend = none ∧
      ∃ (d : Nat → BitVec 64) (older : List (BitVec 64)), t.responses = d 3 :: d 2 :: d 1 :: d 0 :: o.st :: older ∧
        ∀ i j, i < 4 → j < 8 → digestByte o.d (8 * i + j) = byteOf (d i) j) ∧
    (∀ m u t, run m q = .next u → currentTurn u = .host → u.host = [.read (Config.coreBase + 0x218) .w8] → step u = .next t →
      (∀ n v, n < m → run n q = .next v → currentTurn v = .reset → v.responses = s.responses) →
      t.host = [] ∧ t.pend = none ∧ ∃ o, observeReads t.responses = some o ∧ ∀ k, m < k → runDriver M k s = some o) ∧
    (∀ k u, run k q = .next u → u.host ≠ [] → runDriver M k s = none) ∧
    (∀ k m u, run m q = .next u → u.host ≠ [] → currentTurn u = .reset → u.responses ≠ s.responses → runDriver M k s = none) ∧
    ∀ k o, runDriver M k s = some o →
      driverResult M k s = if o.st.getLsbD 2 = false ∧ o.st.getLsbD 1 = true then some o.d else none
end

