-- ==== Sys2Proof/Laws/State.lean ====
section
/-! SUPPORT. What each state update does to each field, one lemma a field, so that no later proof unfolds a record update. -/

namespace Sys2Proof.Machine.State

section setLanes

@[simp] theorem setLanes_lanes (s : State) (A : Lanes) : (s.setLanes A).lanes = A := rfl
@[simp] theorem setLanes_buf (s : State) (A : Lanes) : (s.setLanes A).buf = s.buf := rfl
@[simp] theorem setLanes_dig (s : State) (A : Lanes) : (s.setLanes A).dig = s.dig := rfl
@[simp] theorem setLanes_dvalid (s : State) (A : Lanes) : (s.setLanes A).dvalid = s.dvalid := rfl
@[simp] theorem setLanes_err (s : State) (A : Lanes) : (s.setLanes A).err = s.err := rfl
@[simp] theorem setLanes_errCode (s : State) (A : Lanes) : (s.setLanes A).errCode = s.errCode := rfl
@[simp] theorem setLanes_blockCount (s : State) (A : Lanes) : (s.setLanes A).blockCount = s.blockCount := rfl
@[simp] theorem setLanes_pend (s : State) (A : Lanes) : (s.setLanes A).pend = s.pend := rfl
@[simp] theorem setLanes_host (s : State) (A : Lanes) : (s.setLanes A).host = s.host := rfl
@[simp] theorem setLanes_sched (s : State) (A : Lanes) : (s.setLanes A).sched = s.sched := rfl
@[simp] theorem setLanes_responses (s : State) (A : Lanes) : (s.setLanes A).responses = s.responses := rfl
@[simp] theorem setLanes_draws (s : State) (A : Lanes) : (s.setLanes A).draws = s.draws := rfl

end setLanes

section setBuf

@[simp] theorem setBuf_lanes (s : State) (B : Block) : (s.setBuf B).lanes = s.lanes := rfl
@[simp] theorem setBuf_buf (s : State) (B : Block) : (s.setBuf B).buf = B := rfl
@[simp] theorem setBuf_dig (s : State) (B : Block) : (s.setBuf B).dig = s.dig := rfl
@[simp] theorem setBuf_dvalid (s : State) (B : Block) : (s.setBuf B).dvalid = s.dvalid := rfl
@[simp] theorem setBuf_err (s : State) (B : Block) : (s.setBuf B).err = s.err := rfl
@[simp] theorem setBuf_errCode (s : State) (B : Block) : (s.setBuf B).errCode = s.errCode := rfl
@[simp] theorem setBuf_blockCount (s : State) (B : Block) : (s.setBuf B).blockCount = s.blockCount := rfl
@[simp] theorem setBuf_pend (s : State) (B : Block) : (s.setBuf B).pend = s.pend := rfl
@[simp] theorem setBuf_host (s : State) (B : Block) : (s.setBuf B).host = s.host := rfl
@[simp] theorem setBuf_sched (s : State) (B : Block) : (s.setBuf B).sched = s.sched := rfl
@[simp] theorem setBuf_responses (s : State) (B : Block) : (s.setBuf B).responses = s.responses := rfl
@[simp] theorem setBuf_draws (s : State) (B : Block) : (s.setBuf B).draws = s.draws := rfl

end setBuf

section setDig

@[simp] theorem setDig_lanes (s : State) (D : Digest) : (s.setDig D).lanes = s.lanes := rfl
@[simp] theorem setDig_buf (s : State) (D : Digest) : (s.setDig D).buf = s.buf := rfl
@[simp] theorem setDig_dig (s : State) (D : Digest) : (s.setDig D).dig = D := rfl
@[simp] theorem setDig_dvalid (s : State) (D : Digest) : (s.setDig D).dvalid = s.dvalid := rfl
@[simp] theorem setDig_err (s : State) (D : Digest) : (s.setDig D).err = s.err := rfl
@[simp] theorem setDig_errCode (s : State) (D : Digest) : (s.setDig D).errCode = s.errCode := rfl
@[simp] theorem setDig_blockCount (s : State) (D : Digest) : (s.setDig D).blockCount = s.blockCount := rfl
@[simp] theorem setDig_pend (s : State) (D : Digest) : (s.setDig D).pend = s.pend := rfl
@[simp] theorem setDig_host (s : State) (D : Digest) : (s.setDig D).host = s.host := rfl
@[simp] theorem setDig_sched (s : State) (D : Digest) : (s.setDig D).sched = s.sched := rfl
@[simp] theorem setDig_responses (s : State) (D : Digest) : (s.setDig D).responses = s.responses := rfl
@[simp] theorem setDig_draws (s : State) (D : Digest) : (s.setDig D).draws = s.draws := rfl

end setDig

section setDvalid

@[simp] theorem setDvalid_lanes (s : State) (b : Bool) : (s.setDvalid b).lanes = s.lanes := rfl
@[simp] theorem setDvalid_buf (s : State) (b : Bool) : (s.setDvalid b).buf = s.buf := rfl
@[simp] theorem setDvalid_dig (s : State) (b : Bool) : (s.setDvalid b).dig = s.dig := rfl
@[simp] theorem setDvalid_dvalid (s : State) (b : Bool) : (s.setDvalid b).dvalid = b := rfl
@[simp] theorem setDvalid_err (s : State) (b : Bool) : (s.setDvalid b).err = s.err := rfl
@[simp] theorem setDvalid_errCode (s : State) (b : Bool) : (s.setDvalid b).errCode = s.errCode := rfl
@[simp] theorem setDvalid_blockCount (s : State) (b : Bool) : (s.setDvalid b).blockCount = s.blockCount := rfl
@[simp] theorem setDvalid_pend (s : State) (b : Bool) : (s.setDvalid b).pend = s.pend := rfl
@[simp] theorem setDvalid_host (s : State) (b : Bool) : (s.setDvalid b).host = s.host := rfl
@[simp] theorem setDvalid_sched (s : State) (b : Bool) : (s.setDvalid b).sched = s.sched := rfl
@[simp] theorem setDvalid_responses (s : State) (b : Bool) : (s.setDvalid b).responses = s.responses := rfl
@[simp] theorem setDvalid_draws (s : State) (b : Bool) : (s.setDvalid b).draws = s.draws := rfl

end setDvalid

section setBlockCount

@[simp] theorem setBlockCount_lanes (s : State) (n : BitVec 32) : (s.setBlockCount n).lanes = s.lanes := rfl
@[simp] theorem setBlockCount_buf (s : State) (n : BitVec 32) : (s.setBlockCount n).buf = s.buf := rfl
@[simp] theorem setBlockCount_dig (s : State) (n : BitVec 32) : (s.setBlockCount n).dig = s.dig := rfl
@[simp] theorem setBlockCount_dvalid (s : State) (n : BitVec 32) : (s.setBlockCount n).dvalid = s.dvalid := rfl
@[simp] theorem setBlockCount_err (s : State) (n : BitVec 32) : (s.setBlockCount n).err = s.err := rfl
@[simp] theorem setBlockCount_errCode (s : State) (n : BitVec 32) : (s.setBlockCount n).errCode = s.errCode := rfl
@[simp] theorem setBlockCount_blockCount (s : State) (n : BitVec 32) : (s.setBlockCount n).blockCount = n := rfl
@[simp] theorem setBlockCount_pend (s : State) (n : BitVec 32) : (s.setBlockCount n).pend = s.pend := rfl
@[simp] theorem setBlockCount_host (s : State) (n : BitVec 32) : (s.setBlockCount n).host = s.host := rfl
@[simp] theorem setBlockCount_sched (s : State) (n : BitVec 32) : (s.setBlockCount n).sched = s.sched := rfl
@[simp] theorem setBlockCount_responses (s : State) (n : BitVec 32) : (s.setBlockCount n).responses = s.responses := rfl
@[simp] theorem setBlockCount_draws (s : State) (n : BitVec 32) : (s.setBlockCount n).draws = s.draws := rfl

end setBlockCount

section countBlock

@[simp] theorem countBlock_lanes (s : State) : s.countBlock.lanes = s.lanes := rfl
@[simp] theorem countBlock_buf (s : State) : s.countBlock.buf = s.buf := rfl
@[simp] theorem countBlock_dig (s : State) : s.countBlock.dig = s.dig := rfl
@[simp] theorem countBlock_dvalid (s : State) : s.countBlock.dvalid = s.dvalid := rfl
@[simp] theorem countBlock_err (s : State) : s.countBlock.err = s.err := rfl
@[simp] theorem countBlock_errCode (s : State) : s.countBlock.errCode = s.errCode := rfl
@[simp] theorem countBlock_blockCount (s : State) : s.countBlock.blockCount = s.blockCount + 1 := rfl
@[simp] theorem countBlock_pend (s : State) : s.countBlock.pend = s.pend := rfl
@[simp] theorem countBlock_host (s : State) : s.countBlock.host = s.host := rfl
@[simp] theorem countBlock_sched (s : State) : s.countBlock.sched = s.sched := rfl
@[simp] theorem countBlock_responses (s : State) : s.countBlock.responses = s.responses := rfl
@[simp] theorem countBlock_draws (s : State) : s.countBlock.draws = s.draws := rfl

end countBlock

section setPend

@[simp] theorem setPend_lanes (s : State) (i : Instr) : (s.setPend i).lanes = s.lanes := rfl
@[simp] theorem setPend_buf (s : State) (i : Instr) : (s.setPend i).buf = s.buf := rfl
@[simp] theorem setPend_dig (s : State) (i : Instr) : (s.setPend i).dig = s.dig := rfl
@[simp] theorem setPend_dvalid (s : State) (i : Instr) : (s.setPend i).dvalid = s.dvalid := rfl
@[simp] theorem setPend_err (s : State) (i : Instr) : (s.setPend i).err = s.err := rfl
@[simp] theorem setPend_errCode (s : State) (i : Instr) : (s.setPend i).errCode = s.errCode := rfl
@[simp] theorem setPend_blockCount (s : State) (i : Instr) : (s.setPend i).blockCount = s.blockCount := rfl
@[simp] theorem setPend_pend (s : State) (i : Instr) : (s.setPend i).pend = some i := rfl
@[simp] theorem setPend_host (s : State) (i : Instr) : (s.setPend i).host = s.host := rfl
@[simp] theorem setPend_sched (s : State) (i : Instr) : (s.setPend i).sched = s.sched := rfl
@[simp] theorem setPend_responses (s : State) (i : Instr) : (s.setPend i).responses = s.responses := rfl
@[simp] theorem setPend_draws (s : State) (i : Instr) : (s.setPend i).draws = s.draws := rfl

end setPend

section complete

@[simp] theorem complete_lanes (s : State) : s.complete.lanes = s.lanes := rfl
@[simp] theorem complete_buf (s : State) : s.complete.buf = s.buf := rfl
@[simp] theorem complete_dig (s : State) : s.complete.dig = s.dig := rfl
@[simp] theorem complete_dvalid (s : State) : s.complete.dvalid = s.dvalid := rfl
@[simp] theorem complete_err (s : State) : s.complete.err = s.err := rfl
@[simp] theorem complete_errCode (s : State) : s.complete.errCode = s.errCode := rfl
@[simp] theorem complete_blockCount (s : State) : s.complete.blockCount = s.blockCount := rfl
@[simp] theorem complete_pend (s : State) : s.complete.pend = none := rfl
@[simp] theorem complete_host (s : State) : s.complete.host = s.host := rfl
@[simp] theorem complete_sched (s : State) : s.complete.sched = s.sched := rfl
@[simp] theorem complete_responses (s : State) : s.complete.responses = s.responses := rfl
@[simp] theorem complete_draws (s : State) : s.complete.draws = s.draws := rfl

end complete

section clearErr

@[simp] theorem clearErr_lanes (s : State) : s.clearErr.lanes = s.lanes := rfl
@[simp] theorem clearErr_buf (s : State) : s.clearErr.buf = s.buf := rfl
@[simp] theorem clearErr_dig (s : State) : s.clearErr.dig = s.dig := rfl
@[simp] theorem clearErr_dvalid (s : State) : s.clearErr.dvalid = s.dvalid := rfl
@[simp] theorem clearErr_err (s : State) : s.clearErr.err = false := rfl
@[simp] theorem clearErr_errCode (s : State) : s.clearErr.errCode = none := rfl
@[simp] theorem clearErr_blockCount (s : State) : s.clearErr.blockCount = s.blockCount := rfl
@[simp] theorem clearErr_pend (s : State) : s.clearErr.pend = s.pend := rfl
@[simp] theorem clearErr_host (s : State) : s.clearErr.host = s.host := rfl
@[simp] theorem clearErr_sched (s : State) : s.clearErr.sched = s.sched := rfl
@[simp] theorem clearErr_responses (s : State) : s.clearErr.responses = s.responses := rfl
@[simp] theorem clearErr_draws (s : State) : s.clearErr.draws = s.draws := rfl

end clearErr

section respond

@[simp] theorem respond_lanes (s : State) (v : BitVec 64) : (s.respond v).lanes = s.lanes := rfl
@[simp] theorem respond_buf (s : State) (v : BitVec 64) : (s.respond v).buf = s.buf := rfl
@[simp] theorem respond_dig (s : State) (v : BitVec 64) : (s.respond v).dig = s.dig := rfl
@[simp] theorem respond_dvalid (s : State) (v : BitVec 64) : (s.respond v).dvalid = s.dvalid := rfl
@[simp] theorem respond_err (s : State) (v : BitVec 64) : (s.respond v).err = s.err := rfl
@[simp] theorem respond_errCode (s : State) (v : BitVec 64) : (s.respond v).errCode = s.errCode := rfl
@[simp] theorem respond_blockCount (s : State) (v : BitVec 64) : (s.respond v).blockCount = s.blockCount := rfl
@[simp] theorem respond_pend (s : State) (v : BitVec 64) : (s.respond v).pend = s.pend := rfl
@[simp] theorem respond_host (s : State) (v : BitVec 64) : (s.respond v).host = s.host := rfl
@[simp] theorem respond_sched (s : State) (v : BitVec 64) : (s.respond v).sched = s.sched := rfl
@[simp] theorem respond_responses (s : State) (v : BitVec 64) : (s.respond v).responses = v :: s.responses := rfl
@[simp] theorem respond_draws (s : State) (v : BitVec 64) : (s.respond v).draws = s.draws := rfl

end respond

section countDraw

@[simp] theorem countDraw_lanes (s : State) : s.countDraw.lanes = s.lanes := rfl
@[simp] theorem countDraw_buf (s : State) : s.countDraw.buf = s.buf := rfl
@[simp] theorem countDraw_dig (s : State) : s.countDraw.dig = s.dig := rfl
@[simp] theorem countDraw_dvalid (s : State) : s.countDraw.dvalid = s.dvalid := rfl
@[simp] theorem countDraw_err (s : State) : s.countDraw.err = s.err := rfl
@[simp] theorem countDraw_errCode (s : State) : s.countDraw.errCode = s.errCode := rfl
@[simp] theorem countDraw_blockCount (s : State) : s.countDraw.blockCount = s.blockCount := rfl
@[simp] theorem countDraw_pend (s : State) : s.countDraw.pend = s.pend := rfl
@[simp] theorem countDraw_host (s : State) : s.countDraw.host = s.host := rfl
@[simp] theorem countDraw_sched (s : State) : s.countDraw.sched = s.sched := rfl
@[simp] theorem countDraw_responses (s : State) : s.countDraw.responses = s.responses := rfl
@[simp] theorem countDraw_draws (s : State) : s.countDraw.draws = s.draws + 1 := rfl

end countDraw

section setHost

@[simp] theorem setHost_lanes (s : State) (ops : List HostOp) : (s.setHost ops).lanes = s.lanes := rfl
@[simp] theorem setHost_buf (s : State) (ops : List HostOp) : (s.setHost ops).buf = s.buf := rfl
@[simp] theorem setHost_dig (s : State) (ops : List HostOp) : (s.setHost ops).dig = s.dig := rfl
@[simp] theorem setHost_dvalid (s : State) (ops : List HostOp) : (s.setHost ops).dvalid = s.dvalid := rfl
@[simp] theorem setHost_err (s : State) (ops : List HostOp) : (s.setHost ops).err = s.err := rfl
@[simp] theorem setHost_errCode (s : State) (ops : List HostOp) : (s.setHost ops).errCode = s.errCode := rfl
@[simp] theorem setHost_blockCount (s : State) (ops : List HostOp) : (s.setHost ops).blockCount = s.blockCount := rfl
@[simp] theorem setHost_pend (s : State) (ops : List HostOp) : (s.setHost ops).pend = s.pend := rfl
@[simp] theorem setHost_host (s : State) (ops : List HostOp) : (s.setHost ops).host = ops := rfl
@[simp] theorem setHost_sched (s : State) (ops : List HostOp) : (s.setHost ops).sched = s.sched := rfl
@[simp] theorem setHost_responses (s : State) (ops : List HostOp) : (s.setHost ops).responses = s.responses := rfl
@[simp] theorem setHost_draws (s : State) (ops : List HostOp) : (s.setHost ops).draws = s.draws := rfl

end setHost

section setSched

@[simp] theorem setSched_lanes (s : State) (ts : List Turn) : (s.setSched ts).lanes = s.lanes := rfl
@[simp] theorem setSched_buf (s : State) (ts : List Turn) : (s.setSched ts).buf = s.buf := rfl
@[simp] theorem setSched_dig (s : State) (ts : List Turn) : (s.setSched ts).dig = s.dig := rfl
@[simp] theorem setSched_dvalid (s : State) (ts : List Turn) : (s.setSched ts).dvalid = s.dvalid := rfl
@[simp] theorem setSched_err (s : State) (ts : List Turn) : (s.setSched ts).err = s.err := rfl
@[simp] theorem setSched_errCode (s : State) (ts : List Turn) : (s.setSched ts).errCode = s.errCode := rfl
@[simp] theorem setSched_blockCount (s : State) (ts : List Turn) : (s.setSched ts).blockCount = s.blockCount := rfl
@[simp] theorem setSched_pend (s : State) (ts : List Turn) : (s.setSched ts).pend = s.pend := rfl
@[simp] theorem setSched_host (s : State) (ts : List Turn) : (s.setSched ts).host = s.host := rfl
@[simp] theorem setSched_sched (s : State) (ts : List Turn) : (s.setSched ts).sched = ts := rfl
@[simp] theorem setSched_responses (s : State) (ts : List Turn) : (s.setSched ts).responses = s.responses := rfl
@[simp] theorem setSched_draws (s : State) (ts : List Turn) : (s.setSched ts).draws = s.draws := rfl

end setSched

section raiseErr

@[simp] theorem raiseErr_lanes (s : State) (e : IfaceError) : (s.raiseErr e).lanes = s.lanes := by unfold raiseErr; split <;> rfl
@[simp] theorem raiseErr_buf (s : State) (e : IfaceError) : (s.raiseErr e).buf = s.buf := by unfold raiseErr; split <;> rfl
@[simp] theorem raiseErr_dig (s : State) (e : IfaceError) : (s.raiseErr e).dig = s.dig := by unfold raiseErr; split <;> rfl
@[simp] theorem raiseErr_dvalid (s : State) (e : IfaceError) : (s.raiseErr e).dvalid = s.dvalid := by unfold raiseErr; split <;> rfl
@[simp] theorem raiseErr_err (s : State) (e : IfaceError) : (s.raiseErr e).err = true := by cases h : s.err <;> simp [raiseErr, h]
@[simp] theorem raiseErr_errCode (s : State) (e : IfaceError) : (s.raiseErr e).errCode = (if s.err then s.errCode else some e) := by cases h : s.err <;> simp [raiseErr, h]
@[simp] theorem raiseErr_blockCount (s : State) (e : IfaceError) : (s.raiseErr e).blockCount = s.blockCount := by unfold raiseErr; split <;> rfl
@[simp] theorem raiseErr_pend (s : State) (e : IfaceError) : (s.raiseErr e).pend = s.pend := by unfold raiseErr; split <;> rfl
@[simp] theorem raiseErr_host (s : State) (e : IfaceError) : (s.raiseErr e).host = s.host := by unfold raiseErr; split <;> rfl
@[simp] theorem raiseErr_sched (s : State) (e : IfaceError) : (s.raiseErr e).sched = s.sched := by unfold raiseErr; split <;> rfl
@[simp] theorem raiseErr_responses (s : State) (e : IfaceError) : (s.raiseErr e).responses = s.responses := by unfold raiseErr; split <;> rfl
@[simp] theorem raiseErr_draws (s : State) (e : IfaceError) : (s.raiseErr e).draws = s.draws := by unfold raiseErr; split <;> rfl

/-- Recording an error, as one record update (R272, R277). -/
theorem raiseErr_eq (s : State) (e : IfaceError) :
    s.raiseErr e = { s with err := true, errCode := if s.err then s.errCode else some e } := by
  cases s with
  | mk lanes buf dig dvalid err errCode blockCount pend host sched responses draws =>
    cases err <;> rfl

end raiseErr

section reset

@[simp] theorem reset_lanes : State.reset.lanes = zeroLanes := rfl
@[simp] theorem reset_dvalid : State.reset.dvalid = false := rfl
@[simp] theorem reset_err : State.reset.err = false := rfl
@[simp] theorem reset_errCode : State.reset.errCode = none := rfl
@[simp] theorem reset_blockCount : State.reset.blockCount = 0 := rfl
@[simp] theorem reset_pend : State.reset.pend = none := rfl
@[simp] theorem reset_host : State.reset.host = [] := rfl
@[simp] theorem reset_sched : State.reset.sched = [] := rfl
@[simp] theorem reset_responses : State.reset.responses = [] := rfl
@[simp] theorem reset_draws : State.reset.draws = 0 := rfl

end reset

/-- Two states are equal when every field is. -/
theorem ext_fields {s t : State} (h1 : s.lanes = t.lanes) (h2 : s.buf = t.buf) (h3 : s.dig = t.dig) (h4 : s.dvalid = t.dvalid)
    (h5 : s.err = t.err) (h6 : s.errCode = t.errCode) (h7 : s.blockCount = t.blockCount) (h8 : s.pend = t.pend)
    (h9 : s.host = t.host) (h10 : s.sched = t.sched) (h11 : s.responses = t.responses) (h12 : s.draws = t.draws) : s = t := by
  cases s
  cases t
  simp_all

/-- BUSY is 1 exactly when a command is pending (R39). -/
@[simp] theorem busy_iff (s : State) : s.busy = true ↔ s.pend ≠ none := by
  simp [State.busy, Option.isSome_iff_ne_none]

/-- BUSY is 0 exactly when none is (R39). -/
@[simp] theorem not_busy_iff (s : State) : s.busy = false ↔ s.pend = none := by
  simp [State.busy]

end Sys2Proof.Machine.State
end

