-- ==== Sys2Proof/Laws/Bytes.lean ====
section
/-! SUPPORT. Laws of the byte-order primitives (R10, R13, R72): a value is its bytes, and its bytes are what it was made of. -/

namespace Sys2Proof.Machine

theorem getLsbD_byteOf (v : BitVec 64) (k j : Nat) : (byteOf v k).getLsbD j = (decide (j < 8) && v.getLsbD (8 * k + j)) := by
  simp [byteOf]

theorem valueOfBytes_zero (f : Nat → Byte) : valueOfBytes 0 f = 0 := rfl

theorem valueOfBytes_succ (n : Nat) (f : Nat → Byte) :
    valueOfBytes (n + 1) f = valueOfBytes n f + (f n).setWidth 64 <<< (8 * n) := by
  simp [valueOfBytes, List.range_succ]

/-- Bit `i` of the value of `n` bytes is bit `i mod 8` of byte `i div 8`. -/
theorem getLsbD_valueOfBytes (n : Nat) (f : Nat → Byte) (i : Nat) (hi : i < 64) :
    (valueOfBytes n f).getLsbD i = (decide (i < 8 * n) && (f (i / 8)).getLsbD (i % 8)) := by
  induction n generalizing i with
  | zero => simp [valueOfBytes_zero]
  | succ n ih =>
    have disj : valueOfBytes n f &&& (f n).setWidth 64 <<< (8 * n) = 0 := by
      apply BitVec.eq_of_getLsbD_eq
      intro j hj
      rw [BitVec.getLsbD_and, ih j hj]
      by_cases h : j < 8 * n <;> simp [BitVec.getLsbD_shiftLeft, h]
    rw [valueOfBytes_succ, BitVec.add_eq_or_of_and_eq_zero _ _ disj, BitVec.getLsbD_or, ih i hi]
    by_cases h : i < 8 * n
    · have h2 : i < 8 * (n + 1) := by omega
      simp [BitVec.getLsbD_shiftLeft, h, h2]
    · by_cases h2 : i < 8 * (n + 1)
      · have h3 : i / 8 = n := by omega
        have h4 : i - 8 * n = i % 8 := by omega
        simp [hi, h, h2, h3, h4]
      · have h3 : 8 ≤ i - 8 * n := by omega
        simp only [BitVec.getLsbD_shiftLeft, BitVec.getLsbD_setWidth, h, h2]
        simp [BitVec.getLsbD_of_ge _ _ h3]

/-- Byte `k` of the value of `n` bytes is the `k`-th of them, and 0 from `n` on. -/
theorem byteOf_valueOfBytes (n : Nat) (f : Nat → Byte) (k : Nat) (hk : k < 8) :
    byteOf (valueOfBytes n f) k = if k < n then f k else 0 := by
  apply BitVec.eq_of_getLsbD_eq
  intro j hj
  rw [getLsbD_byteOf, getLsbD_valueOfBytes _ _ _ (by omega)]
  have h1 : (8 * k + j) / 8 = k := by omega
  have h2 : (8 * k + j) % 8 = j := by omega
  have h3 : 8 * k + j < 8 * n ↔ k < n := by omega
  rw [h1, h2]
  by_cases h : k < n <;> simp [h, h3, hj]

@[simp] theorem byteOf_laneOfBytes (f : Nat → Byte) (k : Nat) (hk : k < 8) : byteOf (laneOfBytes f) k = f k := by
  simp [laneOfBytes, byteOf_valueOfBytes 8 f k hk, hk]

/-- Two 64-bit values with the same eight bytes are equal. -/
theorem eq_of_byteOf_eq {u v : BitVec 64} (h : ∀ k, k < 8 → byteOf u k = byteOf v k) : u = v := by
  apply BitVec.eq_of_getLsbD_eq
  intro i hi
  have hb := congrArg (fun b => b.getLsbD (i % 8)) (h (i / 8) (by omega))
  simp only [getLsbD_byteOf] at hb
  have e : 8 * (i / 8) + i % 8 = i := by omega
  have l : i % 8 < 8 := by omega
  simpa [e, l] using hb

@[simp] theorem laneOfBytes_byteOf (v : BitVec 64) : laneOfBytes (byteOf v) = v :=
  eq_of_byteOf_eq fun k hk => by simp [hk]

/-- `lane` reads only its eight bytes. -/
theorem laneOfBytes_congr {f g : Nat → Byte} (h : ∀ k, k < 8 → f k = g k) : laneOfBytes f = laneOfBytes g :=
  eq_of_byteOf_eq fun k hk => by simp [hk, h k hk]

@[simp] theorem byteOf_setByteOf (v : BitVec 64) (k : Nat) (b : Byte) (j : Nat) (hj : j < 8) :
    byteOf (setByteOf v k b) j = if j = k then b else byteOf v j := by
  simp [setByteOf, hj]

theorem byteOf_lowBytes (n : Nat) (v : BitVec 64) (k : Nat) (hk : k < 8) :
    byteOf (lowBytes n v) k = if k < n then byteOf v k else 0 := by
  simp [lowBytes, byteOf_valueOfBytes n _ k hk]

theorem byteOf_xor (u v : BitVec 64) (k : Nat) : byteOf (u ^^^ v) k = byteOf u k ^^^ byteOf v k := by
  apply BitVec.eq_of_getLsbD_eq
  intro j hj
  simp only [BitVec.getLsbD_xor, getLsbD_byteOf, hj, decide_true, Bool.true_and]

@[simp] theorem byteOf_zero (k : Nat) : byteOf 0 k = 0 := by
  apply BitVec.eq_of_getLsbD_eq
  intro j hj
  simp only [getLsbD_byteOf, BitVec.ofNat_eq_ofNat, BitVec.getLsbD_zero, Bool.and_false]


end Sys2Proof.Machine
end

