-- ==== Sys2Proof/Laws/Lanes.lean ====
section
/-! SUPPORT. Laws of the arrays: lanes by coordinates (R11, R12), block bytes (R33), and the byte view of the state (R73). -/

namespace Sys2Proof.Machine

theorem laneAt_eq (A : Lanes) (x y : Nat) (hx : x < 5) (hy : y < 5) : laneAt A x y = A[x + 5 * y]'(by omega) := by
  simp [laneAt, Nat.mod_eq_of_lt hx, Nat.mod_eq_of_lt hy]

theorem laneAt_mod (A : Lanes) (x y : Nat) : laneAt A (x % 5) (y % 5) = laneAt A x y := by
  simp [laneAt]

@[simp] theorem laneAt_mod_left (A : Lanes) (x y : Nat) : laneAt A (x % 5) y = laneAt A x y := by
  simp [laneAt]

@[simp] theorem laneAt_mod_right (A : Lanes) (x y : Nat) : laneAt A x (y % 5) = laneAt A x y := by
  simp [laneAt]

/-- Two states with the same 25 lanes are equal. -/
theorem lanes_ext {A B : Lanes} (h : ∀ x y, x < 5 → y < 5 → laneAt A x y = laneAt B x y) : A = B := by
  apply Vector.ext
  intro i hi
  have e : i % 5 + 5 * (i / 5) = i := by omega
  have := h (i % 5) (i / 5) (by omega) (by omega)
  rw [laneAt_eq _ _ _ (by omega) (by omega), laneAt_eq _ _ _ (by omega) (by omega)] at this
  simpa [e] using this

theorem laneAt_setLaneAt (A : Lanes) (x y x' y' : Nat) (v : Lane) :
    laneAt (setLaneAt A x y v) x' y' = if x % 5 = x' % 5 ∧ y % 5 = y' % 5 then v else laneAt A x' y' := by
  simp only [laneAt, setLaneAt, Vector.getElem_set]
  have : x % 5 + 5 * (y % 5) = x' % 5 + 5 * (y' % 5) ↔ x % 5 = x' % 5 ∧ y % 5 = y' % 5 := by omega
  simp [this]

@[simp] theorem laneAt_buildLanes (f : Nat → Nat → Lane) (x y : Nat) : laneAt (buildLanes f) x y = f (x % 5) (y % 5) := by
  have h1 : (x % 5 + 5 * (y % 5)) % 5 = x % 5 := by omega
  have h2 : (x % 5 + 5 * (y % 5)) / 5 = y % 5 := by omega
  simp [laneAt, buildLanes, h1, h2]

@[simp] theorem laneAt_zeroLanes (x y : Nat) : laneAt zeroLanes x y = 0 := by
  simp [laneAt, zeroLanes]

@[simp] theorem laneAt_index (A : Lanes) (i : Nat) (hi : i < 25) : laneAt A (i % 5) (i / 5) = A[i] := by
  rw [laneAt_eq _ _ _ (by omega) (by omega)]
  have e : i % 5 + 5 * (i / 5) = i := by omega
  simp [e]

theorem blockByte_eq (B : Block) (j : Nat) (h : j < 136) : blockByte B j = B[j] := by
  simp [blockByte, h]

@[simp] theorem blockByte_of_ge (B : Block) (j : Nat) (h : 136 ≤ j) : blockByte B j = 0 := by
  simp [blockByte, Nat.not_lt.mpr h]

/-- Two blocks with the same 136 bytes are equal. -/
theorem block_ext {B C : Block} (h : ∀ j, j < 136 → blockByte B j = blockByte C j) : B = C := by
  apply Vector.ext
  intro j hj
  simpa [blockByte, hj] using h j hj

theorem blockByte_setBlockByte (B : Block) (j : Nat) (b : Byte) (k : Nat) :
    blockByte (setBlockByte B j b) k = if j = k ∧ k < 136 then b else blockByte B k := by
  unfold setBlockByte blockByte
  by_cases hk : k < 136
  · by_cases hj : j < 136
    · simp [hk, hj, Vector.getElem_set]
    · have : j ≠ k := by omega
      simp [hk, hj, this]
  · by_cases hj : j < 136 <;> simp [hk]

@[simp] theorem blockByte_ofFn (f : Fin 136 → Byte) (j : Nat) :
    blockByte (Vector.ofFn f) j = if h : j < 136 then f ⟨j, h⟩ else 0 := by
  unfold blockByte
  split <;> simp

@[simp] theorem blockByte_replicate (b : Byte) (j : Nat) :
    blockByte (Vector.replicate 136 b) j = if j < 136 then b else 0 := by
  unfold blockByte
  split <;> simp

/-- Two digests with the same 32 bytes are equal. -/
theorem digest_ext {D E : Digest} (h : ∀ j, j < 32 → digestByte D j = digestByte E j) : D = E := by
  apply Vector.ext
  intro j hj
  simpa [digestByte, hj] using h j hj

@[simp] theorem digestByte_ofFn (f : Fin 32 → Byte) (j : Nat) :
    digestByte (Vector.ofFn f) j = if h : j < 32 then f ⟨j, h⟩ else 0 := by
  unfold digestByte
  split <;> simp

/-- Writing one byte of the state changes that byte alone (R73, R79). -/
theorem stateByte_setStateByte (A : Lanes) (o : Nat) (b : Byte) (a : Nat) (ho : o < 200) (ha : a < 200) :
    stateByte (setStateByte A o b) a = if o = a then b else stateByte A a := by
  simp only [stateByte, setStateByte, laneAt_setLaneAt, laneAt_mod_left]
  by_cases h : o / 8 = a / 8
  · have h1 : o / 8 % 5 % 5 = a / 8 % 5 := by omega
    have h2 : o / 8 / 5 % 5 = a / 8 / 5 % 5 := by rw [h]
    rw [if_pos ⟨h1, h2⟩, byteOf_setByteOf _ _ _ _ (by omega), h]
    have : a % 8 = o % 8 ↔ o = a := by omega
    simp [this]
  · have h1 : ¬ (o / 8 % 5 % 5 = a / 8 % 5 ∧ o / 8 / 5 % 5 = a / 8 / 5 % 5) := by omega
    have h2 : o ≠ a := by
      rintro rfl
      exact h rfl
    rw [if_neg h1, if_neg h2]

/-- Two states with the same 200 bytes are equal (R73). -/
theorem lanes_ext_bytes {A B : Lanes} (h : ∀ o, o < 200 → stateByte A o = stateByte B o) : A = B := by
  apply lanes_ext
  intro x y hx hy
  apply eq_of_byteOf_eq
  intro k hk
  have e1 : (8 * (x + 5 * y) + k) / 8 % 5 = x := by omega
  have e2 : (8 * (x + 5 * y) + k) / 8 / 5 = y := by omega
  have e3 : (8 * (x + 5 * y) + k) % 8 = k := by omega
  have := h (8 * (x + 5 * y) + k) (by omega)
  simpa [stateByte, e1, e2, e3] using this

/-- Writing `n` bytes of the state from offset `o` changes those bytes alone (R79). -/
theorem stateByte_writeStateBytes (A : Lanes) (o n : Nat) (v : BitVec 64) (a : Nat) (ho : o + n ≤ 200) (ha : a < 200) :
    stateByte (writeStateBytes A o n v) a = if o ≤ a ∧ a < o + n then byteOf v (a - o) else stateByte A a := by
  induction n with
  | zero => simp [writeStateBytes]
  | succ n ih =>
    have e : writeStateBytes A o (n + 1) v = setStateByte (writeStateBytes A o n v) (o + n) (byteOf v n) := by
      simp [writeStateBytes, List.range_succ]
    rw [e, stateByte_setStateByte _ _ _ _ (by omega) ha, ih (by omega)]
    by_cases h : o + n = a
    · have h1 : o ≤ a ∧ a < o + (n + 1) := by omega
      have h2 : a - o = n := by omega
      rw [if_pos h, if_pos h1, h2]
    · have h1 : (o ≤ a ∧ a < o + (n + 1)) ↔ (o ≤ a ∧ a < o + n) := by omega
      simp [h, h1]

/-- Writing `n` bytes of the block buffer from byte `j` changes those bytes alone (R79). -/
theorem blockByte_writeBlockBytes (B : Block) (j n : Nat) (v : BitVec 64) (a : Nat) (ha : a < 136) :
    blockByte (writeBlockBytes B j n v) a = if j ≤ a ∧ a < j + n then byteOf v (a - j) else blockByte B a := by
  induction n with
  | zero => simp [writeBlockBytes]
  | succ n ih =>
    have e : writeBlockBytes B j (n + 1) v = setBlockByte (writeBlockBytes B j n v) (j + n) (byteOf v n) := by
      simp [writeBlockBytes, List.range_succ]
    rw [e, blockByte_setBlockByte, ih]
    by_cases h : j + n = a
    · have h1 : j ≤ a ∧ a < j + (n + 1) := by omega
      have h2 : a - j = n := by omega
      rw [if_pos ⟨h, ha⟩, if_pos h1, h2]
    · have h1 : (j ≤ a ∧ a < j + (n + 1)) ↔ (j ≤ a ∧ a < j + n) := by omega
      simp [h, h1]

end Sys2Proof.Machine
end

