-- ==== Sys2Proof/Laws/Datapath.lean ====
section
/-! SUPPORT. What the shared functions of the datapath do to each lane and byte, said once (R140, R160). -/

namespace Sys2Proof.Machine

/-- The first `n` rounds of the loop of R160. -/
theorem absorb_prefix (A : Lanes) (B : Block) (n : Nat) (hn : n ≤ 25) (x y : Nat) (hx : x < 5) (hy : y < 5) :
  laneAt ((List.range n).foldl (fun A' i => setLaneAt A' (i % 5) (i / 5) (laneAt A (i % 5) (i / 5) ^^^ blockLane B i)) A) x y =
   if x + 5 * y < n then laneAt A x y ^^^ blockLane B (x + 5*y) else laneAt A x y := by
  induction n with
  | zero => simp
  | succ n ih =>
    rw [List.range_succ, List.foldl_append]
    simp only [List.foldl_cons, List.foldl_nil, laneAt_setLaneAt]
    rw [ih (by omega)]
    by_cases h : x + 5 * y = n
    · have h1 : n % 5 % 5 = x % 5 ∧ n / 5 % 5 = y % 5 := by omega
      have h2 : n % 5 = x := by omega
      have h3 : n / 5 = y := by omega
      rw [if_pos h1, if_pos (by omega), h2, h3, h]
    · have h1 : ¬ (n % 5 % 5 = x % 5 ∧ n / 5 % 5 = y % 5) := by omega
      rw [if_neg h1]
      simp only [show x + 5 * y < n + 1 ↔ x + 5 * y < n by omega]

/-- What absorbing does to each lane (R160, R161). -/
theorem laneAt_absorb (A : Lanes) (B : Block) (x y : Nat) (hx : x < 5) (hy : y < 5) :
    laneAt (absorb A B) x y = if x + 5 * y < 17 then laneAt A x y ^^^ blockLane B (x + 5 * y) else laneAt A x y :=
  absorb_prefix A B 17 (by omega) x y hx hy

/-- What OR-ing in the two pad bytes does to each byte (R140, R142). -/
theorem blockByte_orPadBytes (r : Nat) (hr : r ≤ 135) (B : Block) (j : Nat) (hj : j < 136) :
    blockByte (orPadBytes r B) j =
   (if j = r then blockByte B j ||| 0x06 else blockByte B j) ||| (if j = 135 then 0x80 else 0) := by
  unfold orPadBytes orBlockByte
  simp only [blockByte_setBlockByte, hj, and_true]
  by_cases h : j = 135
  · subst h; by_cases h2 : r = 135
    · subst h2; simp
    · simp [h2, Ne.symm h2]
  · by_cases h2 : r = j
    · subst h2; simp [h, Ne.symm h]
    · simp [h, Ne.symm h, h2, Ne.symm h2]

end Sys2Proof.Machine
end

