-- ==== Sys2Proof/Laws/Decode.lean ====
section
/-! SUPPORT. Laws of command words: the fields of an encoded command, and a word from its fields (R110). -/

namespace Sys2Proof

/-- Which PAD commands are well-formed (R113). -/
theorem wellFormed_pad_iff (r : BitVec 8) : (Instr.pad r).WellFormed ↔ r.toNat ≤ 135 := by
  simp [Instr.WellFormed, Instr.wellFormed]

/-- Bit `j` of a command's word: OP below bit 8, ARG below bit 16, 0 above (R110). -/
theorem getLsbD_encode (i : Instr) (j : Nat) (hj : j < 32) :
    (encode i).getLsbD j = (i.opcode.getLsbD j || (decide (8 ≤ j) && i.arg.getLsbD (j - 8))) := by
  simp only [encode, BitVec.getLsbD_or, BitVec.getLsbD_setWidth, BitVec.getLsbD_shiftLeft, hj, decide_true, Bool.true_and]
  by_cases h : j < 8
  · have h1 : ¬ 8 ≤ j := by omega
    simp [h, h1]
  · have h1 : 8 ≤ j := by omega
    have h2 : j - 8 < 32 := by omega
    simp [h, h1, h2]

@[simp] theorem opField_encode (i : Instr) : opField (encode i) = i.opcode := by
  apply BitVec.eq_of_getLsbD_eq
  intro j hj
  have h : ¬ 8 ≤ j := by omega
  simp only [opField, BitVec.getLsbD_extractLsb', Nat.zero_add, hj, decide_true, Bool.true_and,
    getLsbD_encode i j (by omega), h, decide_false, Bool.false_and, Bool.or_false]

@[simp] theorem argField_encode (i : Instr) : argField (encode i) = i.arg := by
  apply BitVec.eq_of_getLsbD_eq
  intro j hj
  have h1 : 8 ≤ 8 + j := by omega
  have h2 : 8 + j - 8 = j := by omega
  simp only [argField, BitVec.getLsbD_extractLsb', hj, decide_true, Bool.true_and, getLsbD_encode i (8 + j) (by omega), h1, h2,
    BitVec.getLsbD_of_ge i.opcode (8 + j) h1, Bool.false_or]

@[simp] theorem rsvField_encode (i : Instr) : rsvField (encode i) = 0 := by
  apply BitVec.eq_of_getLsbD_eq
  intro j hj
  simp only [rsvField, BitVec.getLsbD_extractLsb', hj, decide_true, getLsbD_encode i (16 + j) (by omega),
    BitVec.getLsbD_of_ge i.opcode (16 + j) (by omega), BitVec.getLsbD_of_ge i.arg (16 + j - 8) (by omega), Bool.and_false,
    Bool.or_false, BitVec.ofNat_eq_ofNat, BitVec.getLsbD_zero]

/-- The fields as numbers (R110). -/
theorem opField_toNat (c : Word) : (opField c).toNat = c.toNat % 256 := by
  simp [opField, BitVec.extractLsb'_toNat]

theorem argField_toNat (c : Word) : (argField c).toNat = c.toNat / 256 % 256 := by
  simp [argField, BitVec.extractLsb'_toNat, Nat.shiftRight_eq_div_pow]

theorem rsvField_toNat (c : Word) : (rsvField c).toNat = c.toNat / 65536 := by
  have : c.toNat < 2 ^ 32 := c.isLt
  simp only [rsvField, BitVec.extractLsb'_toNat, Nat.shiftRight_eq_div_pow]
  omega

/-- An encoded command as a number (R117). -/
theorem encode_toNat (i : Instr) : (encode i).toNat = i.opcode.toNat + 256 * i.arg.toNat := by
  have h1 := opField_toNat (encode i)
  have h2 := argField_toNat (encode i)
  have h3 := rsvField_toNat (encode i)
  rw [opField_encode] at h1
  rw [argField_encode] at h2
  rw [rsvField_encode] at h3
  simp at h3
  omega

/-- Decoding with the fields read by division: the checks in the order of R115. -/
theorem decode_eq (c : Word) : decode c =
   if c.toNat % 256 > 6 then .error .illegalOpcode
  else if c.toNat / 65536 ≠ 0 then .error .reservedNonzero
  else if c.toNat % 256 ≠ 5 ∧ c.toNat / 256 % 256 ≠ 0 then .error .reservedNonzero
  else if c.toNat % 256 = 5 ∧ c.toNat / 256 % 256 > 135 then .error .badArg
  else match selectCommand (opField c) (argField c) with | none => .error .illegalOpcode | some i => .ok i := by
  have h1 := opField_toNat c
  have h2 := argField_toNat c
  have h3 := rsvField_toNat c
  have e1 : opField c = 0x05 ↔ c.toNat % 256 = 5 := by
    rw [← h1]; constructor
    · intro h; rw [h]; rfl
    · intro h; apply BitVec.eq_of_toNat_eq; rw [h]; rfl
  have e2 : argField c = 0 ↔ c.toNat / 256 % 256 = 0 := by
    rw [← h2]; constructor
    · intro h; rw [h]; rfl
    · intro h; apply BitVec.eq_of_toNat_eq; rw [h]; rfl
  have e3 : rsvField c = 0 ↔ c.toNat / 65536 = 0 := by
    rw [← h3]; constructor
    · intro h; rw [h]; rfl
    · intro h; apply BitVec.eq_of_toNat_eq; rw [h]; rfl
  have hsel : selectCommand (opField c) (argField c) = none ↔ c.toNat % 256 > 6 := by
    unfold selectCommand; rw [h1]
    have : c.toNat % 256 < 256 := Nat.mod_lt _ (by omega)
    split <;> simp_all <;> omega
  unfold decode
  cases hs : selectCommand (opField c) (argField c) with
  | none => rw [hs] at hsel; simp at hsel; simp [hsel]
  | some i =>
    rw [hs] at hsel; simp at hsel
    have : ¬ c.toNat % 256 > 6 := by omega
    simp only [this, if_false, ne_eq, e1, e2, e3, h2]

end Sys2Proof
end

