-- ==== Sys2Proof/Laws/Exec.lean ====
section
/-! SUPPORT. What each completion can do, said once (R48): the one state a command completes in, and that every legal command completes. -/

namespace Sys2Proof.Machine

theorem exec_nop (s : State) : exec .nop s = .next s.complete := rfl

theorem exec_init (s : State) : exec .init s =
    .next { s with lanes := zeroLanes, buf := Vector.replicate 136 0, dig := Vector.replicate 32 0, blockCount := 0,
                   dvalid := false, pend := none } := by
  simp only [exec, execInit, State.setLanes, State.setBuf, State.setDig, State.setBlockCount, State.setDvalid, State.complete]

theorem exec_absorb (s : State) : exec .absorb s =
    .next { s with lanes := absorb s.lanes s.buf, blockCount := s.blockCount + 1, dvalid := false, pend := none } := by
  simp only [exec, execAbsorb, State.setLanes, State.countBlock, State.setBlockCount, State.setDvalid, State.complete]

theorem exec_permute (s : State) : exec .permute s =
    .next { s with lanes := keccakF s.lanes, dvalid := false, pend := none } := by
  simp only [exec, execPermute, State.setLanes, State.setDvalid, State.complete]

theorem exec_absp (s : State) : exec .absp s =
    .next { s with lanes := keccakF (absorb s.lanes s.buf), blockCount := s.blockCount + 1, dvalid := false,
                   pend := none } := by
  simp only [exec, execAbsp, State.setLanes, State.countBlock, State.setBlockCount, State.setDvalid, State.complete]

theorem exec_pad (r : BitVec 8) (s : State) (h : r.toNat ≤ 135) : exec (.pad r) s =
    .next { s with buf := padBlock r.toNat s.buf, pend := none } := by
  simp only [exec, execPad, if_pos h, State.setBuf, State.complete]

theorem exec_pad_refused (r : BitVec 8) (s : State) (h : 135 < r.toNat) :
    exec (.pad r) s = .refused .illFormedCommand := by
  simp only [exec, execPad, if_neg (Nat.not_le.mpr h)]

theorem exec_squeeze (s : State) : exec .squeeze s =
    .next { s with dig := squeeze s.lanes, dvalid := true, pend := none } := by
  simp only [exec, execSqueeze, State.setDig, State.setDvalid, State.complete]

/-- Every command either completes with BUSY falling and the errors and the outside world as they were, or is an ill-formed PAD. -/
theorem exec_next_frame {i : Instr} {s t : State} (h : exec i s = .next t) :
    i.WellFormed ∧ t.pend = none ∧ t.err = s.err ∧ t.errCode = s.errCode ∧ t.host = s.host ∧ t.sched = s.sched ∧
      t.responses = s.responses ∧ t.draws = s.draws := by
  cases i with
  | nop => cases h; exact ⟨rfl, rfl, rfl, rfl, rfl, rfl, rfl, rfl⟩
  | init => rw [exec_init] at h; obtain rfl := Host.Outcome.next.inj h; exact ⟨rfl, rfl, rfl, rfl, rfl, rfl, rfl, rfl⟩
  | absorb => rw [exec_absorb] at h; obtain rfl := Host.Outcome.next.inj h; exact ⟨rfl, rfl, rfl, rfl, rfl, rfl, rfl, rfl⟩
  | permute => rw [exec_permute] at h; obtain rfl := Host.Outcome.next.inj h; exact ⟨rfl, rfl, rfl, rfl, rfl, rfl, rfl, rfl⟩
  | absp => rw [exec_absp] at h; obtain rfl := Host.Outcome.next.inj h; exact ⟨rfl, rfl, rfl, rfl, rfl, rfl, rfl, rfl⟩
  | pad r =>
    by_cases hr : r.toNat ≤ 135
    · rw [exec_pad r s hr] at h
      obtain rfl := Host.Outcome.next.inj h
      exact ⟨(wellFormed_pad_iff r).mpr hr, rfl, rfl, rfl, rfl, rfl, rfl, rfl⟩
    · rw [exec_pad_refused r s (by omega)] at h
      cases h
  | squeeze => rw [exec_squeeze] at h; obtain rfl := Host.Outcome.next.inj h; exact ⟨rfl, rfl, rfl, rfl, rfl, rfl, rfl, rfl⟩

/-- A legal command completes, whatever the state (R270). -/
theorem exec_completes {i : Instr} (s : State) (h : i.WellFormed) : ∃ t, exec i s = .next t := by
  cases i with
  | nop => exact ⟨_, rfl⟩
  | init => exact ⟨_, exec_init s⟩
  | absorb => exact ⟨_, exec_absorb s⟩
  | permute => exact ⟨_, exec_permute s⟩
  | absp => exact ⟨_, exec_absp s⟩
  | pad r => exact ⟨_, exec_pad r s ((wellFormed_pad_iff r).mp h)⟩
  | squeeze => exact ⟨_, exec_squeeze s⟩

end Sys2Proof.Machine
end

