-- ==== Sys2Proof/Laws/Window.lean ====
section
/-! SUPPORT. What a host access can do, said once (R78, R79, R115): every outcome of a read, of a write, of a command word. -/

namespace Sys2Proof.Machine

theorem Width.bytes_cases (w : Width) : w.bytes = 1 ∨ w.bytes = 2 ∨ w.bytes = 4 ∨ w.bytes = 8 := by
  cases w <;> simp [Width.bytes]

theorem Width.eq_w4 {w : Width} (h : w.bytes = 4) : w = .w4 := by
  cases w <;> simp [Width.bytes] at h ⊢

/-- An offset inside the window is what its host address decodes to (R70). -/
theorem windowOffset_add (base o : Nat) (h : o < 0x400) : windowOffset base (base + o) = some o := by
  have h1 : base ≤ base + o ∧ base + o < base + 0x400 := by omega
  simp [windowOffset, h1]

/-- A host address decodes to an offset exactly when it is in the window (R70). -/
theorem windowOffset_eq_some {base addr o : Nat} (h : windowOffset base addr = some o) : addr = base + o ∧ o < 0x400 := by
  unfold windowOffset at h
  split at h
  · simp at h
    omega
  · cases h

theorem windowOffset_eq_none {base addr : Nat} (h : addr < base ∨ base + 0x400 ≤ addr) : windowOffset base addr = none := by
  have : ¬ (base ≤ addr ∧ addr < base + 0x400) := by omega
  simp [windowOffset, this]

/-- What a command word can do: an error, or the command waits in PEND (R115). -/
theorem issueCommand_cases (c : Word) (s : State) :
    (s.pend ≠ none ∧ issueCommand c s = s.raiseErr .busyViolation) ∨
    (s.pend = none ∧ ∃ e, decode c = .error e ∧ issueCommand c s = s.raiseErr e) ∨
    (s.pend = none ∧ ∃ i, decode c = .ok i ∧ issueCommand c s = s.setPend i) := by
  unfold issueCommand
  by_cases h : s.pend = none
  · have hb : s.busy = false := by simp [h]
    rw [hb]
    cases hd : decode c with
    | error e => exact .inr (.inl ⟨h, e, rfl, rfl⟩)
    | ok i => exact .inr (.inr ⟨h, i, rfl, rfl⟩)
  · have hb : s.busy = true := by simp [h]
    rw [hb]
    exact .inl ⟨h, rfl⟩

/-- What a read can leave behind: nothing, a drawn value, or a recorded BAD_ACCESS (R83). -/
theorem winRead_cases (o : Nat) (w : Width) (s : State) :
    (winRead o w s).2 = s ∨ (s.pend ≠ none ∧ (winRead o w s).2 = s.countDraw) ∨
    winRead o w s = (0, s.raiseErr .badAccess) := by
  have data : ∀ o, (readData o w s).2 = s ∨ (s.pend ≠ none ∧ (readData o w s).2 = s.countDraw) ∨
      readData o w s = (0, s.raiseErr .badAccess) := by
    intro o
    unfold readData
    by_cases h : s.busy = true
    · rw [if_pos h]
      exact .inr (.inl ⟨by simpa using h, rfl⟩)
    · rw [if_neg h]
      exact .inl rfl
  unfold winRead
  split
  · exact .inr (.inr rfl)
  · split
    · exact .inr (.inr rfl)
    · split
      · exact .inr (.inr rfl)
      · split
        · exact data o
        · exact data o
        · exact data o
        · exact .inl rfl
        · exact .inl rfl
        · exact .inl rfl
        · exact .inr (.inr rfl)

/-- The region of an access, read off its offset (R49, R78). -/
theorem region_spec (o n : Nat) :
    (region o n = .state → o + n ≤ 0x0C8) ∧ (region o n = .block → 0x100 ≤ o ∧ o + n ≤ 0x188) ∧
    (region o n = .digest → 0x200 ≤ o ∧ o + n ≤ 0x220) ∧ (region o n = .cmd → o = 0x300) ∧
    (region o n = .status → o = 0x308) ∧ (region o n = .count → o = 0x310) := by
  unfold region
  refine ⟨?_, ?_, ?_, ?_, ?_, ?_⟩ <;> (intro h; repeat' split at h) <;> simp_all

/-- What a write can do (R79): a recorded error, bytes of STATE, bytes of BLOCK, a command word, or the write to STATUS. -/
theorem winWrite_cases (o : Nat) (w : Width) (v : BitVec 64) (s : State) :
    winWrite o w v s = s.raiseErr .badAccess ∨
    (s.pend ≠ none ∧ winWrite o w v s = s.raiseErr .busyViolation) ∨
    (s.pend = none ∧ o % w.bytes = 0 ∧ o + w.bytes ≤ 0x0C8 ∧
      winWrite o w v s = (s.setLanes (writeStateBytes s.lanes o w.bytes v)).setDvalid false) ∨
    (s.pend = none ∧ o % w.bytes = 0 ∧ 0x100 ≤ o ∧ o + w.bytes ≤ 0x188 ∧
      winWrite o w v s = s.setBuf (writeBlockBytes s.buf (o - 0x100) w.bytes v)) ∨
    (o = 0x300 ∧ w = .w4 ∧ winWrite o w v s = issueCommand (v.extractLsb' 0 32) s) ∨
    (o = 0x308 ∧ w = .w4 ∧ winWrite o w v s = writeStatus v s) := by
  obtain ⟨hS, hB, -, hC, hT, -⟩ := region_spec o w.bytes
  unfold winWrite
  split
  · exact .inl rfl
  · rename_i hal
    split
    · exact .inl rfl
    · split
      · exact .inl rfl
      · rename_i hw
        split
        · exact .inl rfl
        · exact .inl rfl
        · rename_i hr
          unfold writeState
          by_cases hb : s.pend = none
          · have hb' : s.busy = false := by simp [hb]
            rw [hb']
            exact .inr (.inr (.inl ⟨hb, by omega, hS hr, rfl⟩))
          · have hb' : s.busy = true := by simp [hb]
            rw [hb']
            exact .inr (.inl ⟨hb, rfl⟩)
        · rename_i hr
          unfold writeBlock
          by_cases hb : s.pend = none
          · have hb' : s.busy = false := by simp [hb]
            rw [hb']
            exact .inr (.inr (.inr (.inl ⟨hb, by omega, (hB hr).1, (hB hr).2, rfl⟩)))
          · have hb' : s.busy = true := by simp [hb]
            rw [hb']
            exact .inr (.inl ⟨hb, rfl⟩)
        · rename_i hr
          have h4 : w.bytes = 4 := by
            by_contra hne
            exact hw ⟨by rw [hr]; rfl, hne⟩
          exact .inr (.inr (.inr (.inr (.inl ⟨hC hr, Width.eq_w4 h4, rfl⟩))))
        · rename_i hr
          have h4 : w.bytes = 4 := by
            by_contra hne
            exact hw ⟨by rw [hr]; rfl, hne⟩
          exact .inr (.inr (.inr (.inr (.inr ⟨hT hr, Width.eq_w4 h4, rfl⟩))))
        · exact .inl rfl

/-- A read leaves the outside world's inputs and what was delivered before (R78). -/
theorem winRead_frame (o : Nat) (w : Width) (s : State) :
    (winRead o w s).2.host = s.host ∧ (winRead o w s).2.sched = s.sched ∧ (winRead o w s).2.responses = s.responses ∧
      (winRead o w s).2.pend = s.pend := by
  rcases winRead_cases o w s with e | ⟨-, e⟩ | e <;> rw [e] <;> simp

/-- A write leaves everything outside the core (R79). -/
theorem winWrite_frame (o : Nat) (w : Width) (v : BitVec 64) (s : State) :
    (winWrite o w v s).host = s.host ∧ (winWrite o w v s).sched = s.sched ∧ (winWrite o w v s).responses = s.responses ∧
      (winWrite o w v s).draws = s.draws := by
  rcases winWrite_cases o w v s with e | ⟨-, e⟩ | ⟨-, -, -, e⟩ | ⟨-, -, -, -, e⟩ | ⟨-, -, e⟩ | ⟨-, -, e⟩ <;> rw [e]
  · simp
  · simp
  · simp
  · simp
  · rcases issueCommand_cases (v.extractLsb' 0 32) s with ⟨-, e⟩ | ⟨-, _, -, e⟩ | ⟨-, _, -, e⟩ <;> rw [e] <;> simp
  · unfold writeStatus
    split <;> simp

/-- An aligned write to STATE of an idle core is accepted (R79). -/
theorem winWrite_state {o : Nat} {w : Width} (v : BitVec 64) {s : State} (h : s.pend = none) (ha : o % w.bytes = 0)
    (ho : o + w.bytes ≤ 0x0C8) :
    winWrite o w v s = (s.setLanes (writeStateBytes s.lanes o w.bytes v)).setDvalid false := by
  have hr : region o w.bytes = .state := by simp [region, ho]
  have hb : s.busy = false := by simp [h]
  simp [winWrite, ha, hr, Region.isControl, writeState, hb]

/-- An aligned write to BLOCK of an idle core is accepted (R79). -/
theorem winWrite_block {o : Nat} {w : Width} (v : BitVec 64) {s : State} (h : s.pend = none) (ha : o % w.bytes = 0)
    (hlo : 0x100 ≤ o) (ho : o + w.bytes ≤ 0x188) :
    winWrite o w v s = s.setBuf (writeBlockBytes s.buf (o - 0x100) w.bytes v) := by
  have h1 : ¬ o + w.bytes ≤ 0x0C8 := by omega
  have hr : region o w.bytes = .block := by simp [region, h1, hlo, ho]
  have hb : s.busy = false := by simp [h]
  simp [winWrite, ha, hr, Region.isControl, writeBlock, hb]

/-- A 4-byte write to CMD issues the command word (R37, R79). -/
theorem winWrite_cmd (v : BitVec 64) (s : State) : winWrite 0x300 .w4 v s = issueCommand (v.extractLsb' 0 32) s := rfl

/-- A 4-byte write to STATUS (R41, R79). -/
theorem winWrite_status (v : BitVec 64) (s : State) : winWrite 0x308 .w4 v s = writeStatus v s := rfl

/-- An aligned read of a data region of an idle core (R78). -/
theorem winRead_data {o : Nat} {w : Width} {s : State} (h : s.pend = none) (ha : o % w.bytes = 0)
    (ho : o + w.bytes ≤ 0x0C8 ∨ (0x100 ≤ o ∧ o + w.bytes ≤ 0x188) ∨ (0x200 ≤ o ∧ o + w.bytes ≤ 0x220)) :
    winRead o w s = (valueOfBytes w.bytes fun k => winByte s (o + k), s) := by
  have hb : s.busy = false := by simp [h]
  have hr : region o w.bytes = .state ∨ region o w.bytes = .block ∨ region o w.bytes = .digest := by
    unfold region
    split
    · exact .inl rfl
    · split
      · exact .inr (.inl rfl)
      · split
        · exact .inr (.inr rfl)
        · omega
  rcases hr with hr | hr | hr <;> simp [winRead, ha, hr, Region.isControl, readData, hb]

/-- A 4-byte read of STATUS, busy or idle (R78, R85). -/
theorem winRead_status (s : State) : winRead 0x308 .w4 s = (statusWord s, s) := rfl

end Sys2Proof.Machine
end

