-- ==== Sys2Proof/Laws/Step.lean ====
section
/-! SUPPORT. What a turn and a step can do, said once (R16, R86): every later claim about all steps starts from these. -/

namespace Sys2Proof.Machine

/-- What a host turn can do (R118, R119): nothing is left to do; a read or a write, outside the window or inside it; or one poll. -/
theorem hostTurn_cases (s : State) :
    (s.host = [] ∧ hostTurn s = s) ∨
    (∃ addr w ops, s.host = .read addr w :: ops ∧
      ((windowOffset Config.coreBase addr = none ∧ hostTurn s = s.setHost ops) ∨
       ∃ o, addr = Config.coreBase + o ∧ o < 0x400 ∧
        hostTurn s = (winRead o w (s.setHost ops)).2.respond (winRead o w (s.setHost ops)).1)) ∨
    (∃ addr w v ops, s.host = .write addr w v :: ops ∧
      ((windowOffset Config.coreBase addr = none ∧ hostTurn s = s.setHost ops) ∨
       ∃ o, addr = Config.coreBase + o ∧ o < 0x400 ∧ hostTurn s = winWrite o w v (s.setHost ops))) ∨
    (∃ ops, s.host = .wait :: ops ∧ s.pend ≠ none ∧ hostTurn s = s.respond (statusWord s)) ∨
    (∃ ops, s.host = .wait :: ops ∧ s.pend = none ∧ hostTurn s = (s.setHost ops).respond (statusWord s)) := by
  cases hh : s.host with
  | nil => exact .inl ⟨rfl, by simp [hostTurn, hh]⟩
  | cons op ops =>
    cases op with
    | read addr w =>
      refine .inr (.inl ⟨addr, w, ops, rfl, ?_⟩)
      cases ho : windowOffset Config.coreBase addr with
      | none => exact .inl ⟨rfl, by simp [hostTurn, hh, hostRead, ho]⟩
      | some o => exact .inr ⟨o, (windowOffset_eq_some ho).1, (windowOffset_eq_some ho).2, by simp [hostTurn, hh, hostRead, ho]⟩
    | write addr w v =>
      refine .inr (.inr (.inl ⟨addr, w, v, ops, rfl, ?_⟩))
      cases ho : windowOffset Config.coreBase addr with
      | none => exact .inl ⟨rfl, by simp [hostTurn, hh, hostWrite, ho]⟩
      | some o => exact .inr ⟨o, (windowOffset_eq_some ho).1, (windowOffset_eq_some ho).2, by simp [hostTurn, hh, hostWrite, ho]⟩
    | wait =>
      by_cases hp : s.pend = none
      · have hb : s.busy = false := by simp [hp]
        refine .inr (.inr (.inr (.inr ⟨ops, rfl, hp, ?_⟩)))
        have : hostTurn s = pollStatus (s.setHost ops) := by simp [hostTurn, hh, hb]
        rw [this]
        rfl
      · have hb : s.busy = true := by simp [hp]
        refine .inr (.inr (.inr (.inl ⟨ops, rfl, hp, ?_⟩)))
        have : hostTurn s = pollStatus s := by simp [hostTurn, hh, hb]
        rw [this]
        rfl

/-- What an ENGINE turn can do (R48): nothing without a pending command, else its completion. -/
theorem engineTurn_none {s : State} (h : s.pend = none) : engineTurn s = .next s := by
  simp [engineTurn, h]

theorem engineTurn_some {s : State} {i : Instr} (h : s.pend = some i) : engineTurn s = exec i s := by
  simp [engineTurn, h]

/-- What a step can do (R16, R86, R300). -/
theorem step_cases {s t : State} (h : step s = .next t) :
    (currentTurn s = .host ∧ t = hostTurn (s.setSched s.sched.tail)) ∨
    (currentTurn s = .engine ∧ s.pend = none ∧ t = s.setSched s.sched.tail) ∨
    (∃ i, currentTurn s = .engine ∧ s.pend = some i ∧ exec i (s.setSched s.sched.tail) = .next t) ∨
    (currentTurn s = .reset ∧ t = resetTurn (s.setSched s.sched.tail)) := by
  unfold step performTurn at h
  cases hc : currentTurn s with
  | host =>
    rw [hc] at h
    cases h
    exact .inl ⟨rfl, rfl⟩
  | engine =>
    rw [hc] at h
    cases hp : s.pend with
    | none =>
      rw [engineTurn_none (by simpa using hp)] at h
      cases h
      exact .inr (.inl ⟨rfl, rfl, rfl⟩)
    | some i =>
      rw [engineTurn_some (i := i) (by simpa using hp)] at h
      exact .inr (.inr (.inl ⟨i, rfl, rfl, h⟩))
  | reset =>
    rw [hc] at h
    cases h
    exact .inr (.inr (.inr ⟨rfl, rfl⟩))

theorem step_host {s : State} (h : currentTurn s = .host) : step s = .next (hostTurn (s.setSched s.sched.tail)) := by
  simp [step, performTurn, h]

theorem step_engine {s : State} {i : Instr} (h : currentTurn s = .engine) (hp : s.pend = some i) :
    step s = exec i (s.setSched s.sched.tail) := by
  simp only [step, performTurn, h]
  exact engineTurn_some (by simpa using hp)

theorem step_engine_idle {s : State} (h : currentTurn s = .engine) (hp : s.pend = none) :
    step s = .next (s.setSched s.sched.tail) := by
  simp only [step, performTurn, h]
  exact engineTurn_none (by simpa using hp)

theorem step_reset {s : State} (h : currentTurn s = .reset) : step s = .next (resetTurn (s.setSched s.sched.tail)) := by
  simp [step, performTurn, h]

theorem currentTurn_cons {s : State} {t : Turn} {ts : List Turn} (h : s.sched = t :: ts) : currentTurn s = t := by
  simp [currentTurn, h]

/-- With the schedule used up an enabled ENGINE goes first (log 2). -/
theorem currentTurn_nil {s : State} (h : s.sched = []) : currentTurn s = if s.pend = none then .host else .engine := by
  by_cases hp : s.pend = none
  · have hb : s.busy = false := by simp [hp]
    simp [currentTurn, h, hb, hp]
  · have hb : s.busy = true := by simp [hp]
    simp [currentTurn, h, hb, hp]

/-- What a host turn leaves alone (R43, R79, R83): DIG and BLOCK_COUNT always; and the rest of the core too, but for an accepted write to
STATE, to BLOCK or to CMD of an idle core. -/
theorem hostTurn_frame (s : State) : let t := hostTurn s
   t.dig = s.dig ∧ t.blockCount = s.blockCount ∧
   (t.lanes = s.lanes ∧ t.buf = s.buf ∧ t.dvalid = s.dvalid ∧ t.pend = s.pend ∨
     s.pend = none ∧ ∃ o w v ops, s.host = .write (Config.coreBase + o) w v :: ops ∧ o % w.bytes = 0 ∧
       ((o + w.bytes ≤ 0xC8 ∧ t.dvalid = false ∧ t.buf = s.buf ∧ t.pend = none) ∨
        (0x100 ≤ o ∧ o + w.bytes ≤ 0x188 ∧ t.lanes = s.lanes ∧ t.dvalid = s.dvalid ∧ t.pend = none) ∨
        (o = 0x300 ∧ w = .w4 ∧ t.lanes = s.lanes ∧ t.buf = s.buf ∧ t.dvalid = s.dvalid))) := by
  intro t
  rcases hostTurn_cases s with ⟨-, e⟩ | ⟨a, w, ops, -, ⟨-, e⟩ | ⟨o, -, -, e⟩⟩ | ⟨a, w, v, ops, hh, ⟨-, e⟩ | ⟨o, rfl, -, e⟩⟩ | ⟨ops, -, -, e⟩ | ⟨ops, -, -, e⟩ <;> simp only [t, e]
  · simp
  · simp
  · rcases winRead_cases o w (s.setHost ops) with e | ⟨-, e⟩ | e <;> rw [e] <;> simp
  · simp
  · rcases winWrite_cases o w v (s.setHost ops) with e | ⟨-, e⟩ | ⟨hp, ha, ho, e⟩ | ⟨hp, ha, ho, ho', e⟩ | ⟨h1, h2, e⟩ | ⟨-, -, e⟩ <;> rw [e]
    · simp
    · simp
    · refine ⟨rfl, rfl, .inr ⟨hp, o, w, v, ops, hh, ha, .inl ⟨ho, rfl, rfl, hp⟩⟩⟩
    · refine ⟨rfl, rfl, .inr ⟨hp, o, w, v, ops, hh, ha, .inr (.inl ⟨ho, ho', rfl, rfl, hp⟩)⟩⟩
    · rcases issueCommand_cases (v.extractLsb' 0 32) (s.setHost ops) with ⟨-, e⟩ | ⟨-, _, -, e⟩ | ⟨hp, i, hd, e⟩ <;> rw [e]
      · simp
      · simp
      · subst h1 h2
        refine ⟨rfl, rfl, .inr ⟨hp, _, _, v, ops, hh, rfl, .inr (.inr ⟨rfl, rfl, rfl, rfl, rfl⟩)⟩⟩
    · unfold writeStatus; split <;> simp
  · simp
  · simp

/-- One poll of a `wait` while a command is pending: the host goes on waiting (R119). -/
theorem hostTurn_poll_busy {s : State} {ops : List HostOp} (hh : s.host = .wait :: ops) (hp : s.pend ≠ none) :
    hostTurn s = s.respond (statusWord s) := by
  rcases hostTurn_cases s with ⟨h, -⟩ | ⟨_, _, _, h, -⟩ | ⟨_, _, _, _, h, -⟩ | ⟨_, -, -, e⟩ | ⟨_, -, h, -⟩
  · rw [hh] at h; cases h
  · rw [hh] at h; cases h
  · rw [hh] at h; cases h
  · exact e
  · exact absurd h hp

/-- One poll of a `wait` while the core is idle: the wait is over (R119). -/
theorem hostTurn_poll_idle {s : State} {ops : List HostOp} (hh : s.host = .wait :: ops) (hp : s.pend = none) :
    hostTurn s = (s.setHost ops).respond (statusWord s) := by
  rcases hostTurn_cases s with ⟨h, -⟩ | ⟨_, _, _, h, -⟩ | ⟨_, _, _, _, h, -⟩ | ⟨_, -, h, -⟩ | ⟨_, h, -, e⟩
  · rw [hh] at h; cases h
  · rw [hh] at h; cases h
  · rw [hh] at h; cases h
  · exact absurd hp h
  · rw [hh] at h; cases h; exact e

/-- A host turn leaves the schedule, and performs its first operation or goes on waiting (R118, R119). -/
theorem hostTurn_host (s : State) :
    (hostTurn s).sched = s.sched ∧ ((hostTurn s).host = s.host ∨ (hostTurn s).host = s.host.tail) := by
  rcases hostTurn_cases s with ⟨-, e⟩ | ⟨a, w, ops, hh, ⟨-, e⟩ | ⟨o, -, -, e⟩⟩ | ⟨a, w, v, ops, hh, ⟨-, e⟩ | ⟨o, -, -, e⟩⟩ |
    ⟨ops, hh, -, e⟩ | ⟨ops, hh, -, e⟩ <;> rw [e]
  · exact ⟨rfl, .inl rfl⟩
  · exact ⟨rfl, .inr (by rw [hh]; rfl)⟩
  · exact ⟨(winRead_frame o w _).2.1, .inr (by rw [hh]; exact (winRead_frame o w _).1)⟩
  · exact ⟨rfl, .inr (by rw [hh]; rfl)⟩
  · exact ⟨(winWrite_frame o w v _).2.1, .inr (by rw [hh]; exact (winWrite_frame o w v _).1)⟩
  · exact ⟨rfl, .inl rfl⟩
  · exact ⟨rfl, .inr (by rw [hh]; rfl)⟩

/-- Every step takes one turn off the schedule (log 1). -/
theorem step_sched {s t : State} (h : step s = .next t) : t.sched = s.sched.tail := by
  rcases step_cases h with ⟨-, rfl⟩ | ⟨-, -, rfl⟩ | ⟨i, -, -, he⟩ | ⟨-, rfl⟩
  · exact (hostTurn_host _).1
  · rfl
  · exact (exec_next_frame he).2.2.2.2.2.1
  · rfl

end Sys2Proof.Machine
end

