-- ==== Sys2Proof/Laws/DriverRun.lean ====
section
/-! SUPPORT. What a run of the driver can observe, said once (R245, R247). -/

namespace Sys2Proof.Machine

/-- Byte `j` of the `i`-th word read is byte `8i + j` of the digest (R119). -/
theorem digestByte_digestOfWords (t0 t1 t2 t3 : BitVec 64) (i j : Nat) (hi : i < 4) (hj : j < 8) :
    digestByte (digestOfWords t0 t1 t2 t3) (8 * i + j) = byteOf ([t0, t1, t2, t3].getD i 0) j := by
  have h1 : 8 * i + j < 32 := by omega
  have h2 : (8 * i + j) / 8 = i := by omega
  have h3 : (8 * i + j) % 8 = j := by omega
  simp only [digestOfWords, digestByte_ofFn, h1, h2, h3, dif_pos]

/-- Reads are observed when there are five of them. -/
theorem observeReads_eq_some {rs : List (BitVec 64)} {o : Observation} (h : observeReads rs = some o) :
    ∃ t0 t1 t2 t3 older, rs = t3 :: t2 :: t1 :: t0 :: o.st :: older ∧ o.d = digestOfWords t0 t1 t2 t3 := by
  match rs, h with
  | t3 :: t2 :: t1 :: t0 :: st :: older, h =>
    obtain rfl := Option.some.inj h
    exact ⟨t0, t1, t2, t3, older, rfl, rfl⟩

/-- A state has an observation only at the end of its host program, idle (R247). -/
theorem observation_eq_some {s : State} {o : Observation} (h : s.observation = some o) :
    s.host = [] ∧ s.pend = none ∧ observeReads s.responses = some o := by
  unfold State.observation at h
  split at h
  · rename_i he
    exact ⟨he.1, he.2, h⟩
  · cases h

/-- A run with an operation left to perform still waits (R247). -/
theorem observation_of_host_ne {s : State} (h : s.host ≠ []) : s.observation = none := by
  simp [State.observation, h]

/-- A run ends at the first state that has an observation. -/
theorem observeRun_of_observation {base : List (BitVec 64)} {s : State} {o : Observation} (k : Nat) (h : s.observation = some o) :
    observeRun base k s = some o := by
  cases k with
  | zero => exact h
  | succ k => simp only [observeRun, h]

/-- A run that a reset meets once its first `wait` has read has no result (R247, R300). -/
theorem observeRun_reset {base : List (BitVec 64)} {s : State} (k : Nat) (h : s.observation = none) (hc : currentTurn s = .reset)
    (hb : s.responses ≠ base) : observeRun base k s = none := by
  cases k with
  | zero => exact h
  | succ k => simp only [observeRun, h, if_pos (And.intro hc hb)]

/-- A run goes on where it has not ended and no reset ends it. -/
theorem observeRun_step {base : List (BitVec 64)} {s t : State} (k : Nat) (h : s.observation = none)
    (hc : currentTurn s = .reset → s.responses = base) (hs : step s = .next t) :
    observeRun base (k + 1) s = observeRun base k t := by
  simp only [observeRun, h, hs, if_neg (fun hh : currentTurn s = .reset ∧ s.responses ≠ base => hh.2 (hc hh.1))]

/-- What the driver returns: `d` when `st` shows ERR = 0 and DVALID = 1, else nothing (R245). -/
theorem Observation.digest_eq (o : Observation) :
    o.digest = if o.st.getLsbD 2 = false ∧ o.st.getLsbD 1 = true then some o.d else none := by
  unfold Observation.digest Observation.fails
  cases o.st.getLsbD 2 <;> cases o.st.getLsbD 1 <;> rfl

/-- One write inside the window. -/
theorem hostTurn_wr {s : State} {w : Width} {o : Nat} {v : BitVec 64} {ops : List HostOp} (hh : s.host = wr w o v :: ops)
    (ho : o < 0x400) : hostTurn s = winWrite o w v (s.setHost ops) := by
  simp [hostTurn, hh, wr, hostWrite, windowOffset_add Config.coreBase o ho]

/-- One read inside the window. -/
theorem hostTurn_rd {s : State} {w : Width} {o : Nat} {ops : List HostOp} (hh : s.host = rd w o :: ops) (ho : o < 0x400) :
    hostTurn s = (winRead o w (s.setHost ops)).2.respond (winRead o w (s.setHost ops)).1 := by
  simp [hostTurn, hh, rd, hostRead, windowOffset_add Config.coreBase o ho]

end Sys2Proof.Machine
end

