-- ==== Sys2Proof/Laws/PerInstr.lean ====
section
/-! SUPPORT. What holds of the encoding of each command, one lemma for each constructor of Instr: OP is the command's code, at most 6,
RSV is 0, and ARG is 0 outside PAD (R112 to R114). -/

namespace Sys2Proof.Laws.EncodedFields

/-- The fields of a command's word. -/
def Statement (i : Instr) : Prop :=
  opField (encode i) = i.opcode ∧ i.opcode.toNat ≤ 6 ∧ rsvField (encode i) = 0 ∧
    (i.opcode ≠ 0x05 → argField (encode i) = 0)

theorem nop : Statement .nop := ⟨by simp, by decide, by simp, by simp [Instr.arg]⟩

theorem init : Statement .init := ⟨by simp, by decide, by simp, by simp [Instr.arg]⟩

theorem absorb : Statement .absorb := ⟨by simp, by decide, by simp, by simp [Instr.arg]⟩

theorem permute : Statement .permute := ⟨by simp, by decide, by simp, by simp [Instr.arg]⟩

theorem absp : Statement .absp := ⟨by simp, by decide, by simp, by simp [Instr.arg]⟩

theorem pad (r : BitVec 8) : Statement (.pad r) := ⟨by simp, by simp [Instr.opcode], by simp, fun h => absurd rfl h⟩

theorem squeeze : Statement .squeeze := ⟨by simp, by decide, by simp, by simp [Instr.arg]⟩

end Sys2Proof.Laws.EncodedFields
end

