-- ==== Sys2Proof/Laws/Run.lean ====
section
/-! SUPPORT. Runs of the machine: one step at a time, and one run after another. -/

namespace Sys2Proof.Machine

@[simp] theorem run_zero (s : State) : run 0 s = .next s := rfl

/-- A run whose first step answers a next state goes on from there. -/
theorem run_succ {s t : State} (k : Nat) (h : step s = .next t) : run (k + 1) s = run k t := by
  rw [run, h]

/-- One step is a run of length 1. -/
theorem run_one (s : State) : run 1 s = step s := by
  rw [run]
  cases step s <;> rfl

/-- A run goes on from where an earlier run ended. -/
theorem run_add {s t : State} {k : Nat} (m : Nat) (h : run k s = .next t) : run (k + m) s = run m t := by
  induction k generalizing s with
  | zero =>
    rw [run_zero] at h
    obtain rfl := Host.Outcome.next.inj h
    rw [Nat.zero_add]
  | succ k ih =>
    cases hs : step s with
    | next u =>
      rw [run_succ k hs] at h
      rw [Nat.add_right_comm, run_succ (k + m) hs]
      exact ih h
    | fault r =>
      rw [run, hs] at h
      cases h
    | refused r =>
      rw [run, hs] at h
      cases h

/-- A run takes its turns off the schedule (log 1). -/
theorem run_sched {s t : State} {k : Nat} (h : run k s = .next t) : t.sched = s.sched.drop k := by
  induction k generalizing s with
  | zero =>
    obtain rfl := Host.Outcome.next.inj h
    rfl
  | succ k ih =>
    cases hs : step s with
    | next u =>
      rw [run_succ k hs] at h
      rw [ih h, step_sched hs, List.drop_tail]
    | fault r =>
      cases r
    | refused r =>
      rw [run, hs] at h
      cases h

/-- A reset is due only where the schedule names one (log 2). -/
theorem sched_of_reset {s : State} (h : currentTurn s = .reset) : ∃ ts, s.sched = .reset :: ts := by
  cases hs : s.sched with
  | nil =>
    rw [currentTurn_nil hs] at h
    split at h <;> cases h
  | cons x xs =>
    rw [currentTurn_cons hs] at h
    exact ⟨xs, by rw [h]⟩

/-- A step leaves no operation where none was left: the host's program only shrinks (R86). -/
theorem host_ne_of_step {s t : State} (hs : step s = .next t) (h : t.host ≠ []) : s.host ≠ [] := by
  intro h0
  rcases step_cases hs with ⟨-, rfl⟩ | ⟨-, -, rfl⟩ | ⟨i, -, -, he⟩ | ⟨-, rfl⟩
  · rcases (hostTurn_host (s.setSched s.sched.tail)).2 with e | e <;> (rw [e] at h; simp [h0] at h)
  · exact h h0
  · exact h ((exec_next_frame he).2.2.2.2.1.trans h0)
  · exact h h0

/-- A run leaves no operation where none was left. -/
theorem host_ne_of_run {s t : State} {k : Nat} (h : run k s = .next t) (ht : t.host ≠ []) : s.host ≠ [] := by
  induction k generalizing s with
  | zero =>
    obtain rfl := Host.Outcome.next.inj h
    exact ht
  | succ k ih =>
    cases hs : step s with
    | next u =>
      rw [run_succ k hs] at h
      exact host_ne_of_step hs (ih h)
    | fault r =>
      cases r
    | refused r =>
      rw [run, hs] at h
      cases h

end Sys2Proof.Machine
end

