-- ==== Sys2Proof/Tests/Slice0.lean ====
section
/-! SUPPORT. The model's own tests. Expected values are those of spec/95_test_vectors.md (named V-… or W…), of the encoding tables of
spec/30_encoding.md, or worked out by hand from a rule. The theorems named `witness_…` show states and operands that meet the hypotheses of
an obligation. -/

namespace Sys2Proof.Tests

open Sys2Proof.Machine

/-! ## Helpers -/

/-- A next state that passes a check. -/
def nextAnd (o : Host.Outcome State Fault Refusal) (p : State → Bool) : Bool :=
  match o with
  | .next t => p t
  | .fault _ => false
  | .refused _ => false

/-- The reset state with a pending command. -/
def pending (i : Instr) : State := { State.reset with pend := some i }

/-- The reset state with a recorded error. -/
def erred (e : IfaceError) : State := { State.reset with err := true, errCode := some e }

/-- The reset state about to make a turn, with a host program. -/
def scheduled (ts : List Turn) (ops : List HostOp) : State := { State.reset with sched := ts, host := ops }

/-- All bytes 0xFF. -/
def onesBlock : Block := Vector.replicate 136 0xFF

/-- All lanes 0 but one. -/
def oneLane (x y : Nat) (v : Lane) : Lanes := setLaneAt zeroLanes x y v

/-- What STATUS reads as. -/
def status (s : State) : BitVec 64 := (winRead 0x308 .w4 s).1

/-! ## Well-formedness -/

theorem test_wellFormed_pad_136_is_refused : (Instr.pad 136).wellFormed = false := by decide

theorem test_wellFormed_pad_255_is_refused : (Instr.pad 255).wellFormed = false := by decide

theorem test_wellFormed_edges : (Instr.pad 0).WellFormed ∧ (Instr.pad 135).WellFormed ∧ Instr.squeeze.WellFormed := by decide

/-! ## Decoding: words written out from the encoding of spec/30_encoding.md, RSV then ARG then OP -/

theorem test_decode_nop : decode (0b0000000000000000#16 ++ 0b00000000#8 ++ 0b00000000#8) = .ok .nop := by decide

theorem test_decode_init : decode (0b0000000000000000#16 ++ 0b00000000#8 ++ 0b00000001#8) = .ok .init := by decide

theorem test_decode_absorb : decode (0b0000000000000000#16 ++ 0b00000000#8 ++ 0b00000010#8) = .ok .absorb := by decide

theorem test_decode_permute : decode (0b0000000000000000#16 ++ 0b00000000#8 ++ 0b00000011#8) = .ok .permute := by decide

theorem test_decode_absp : decode (0b0000000000000000#16 ++ 0b00000000#8 ++ 0b00000100#8) = .ok .absp := by decide

theorem test_decode_pad : decode (0b0000000000000000#16 ++ 0b10000111#8 ++ 0b00000101#8) = .ok (.pad 135) := by decide

theorem test_decode_squeeze : decode (0b0000000000000000#16 ++ 0b00000000#8 ++ 0b00000110#8) = .ok .squeeze := by decide

/-- V-D15, V-D16, V-D17, V-A7, V-P13, V-N2, V-W17, V-W18, V-W19. -/
theorem test_decode_rejections :
    decode 0x00008805 = .error .badArg ∧ decode 0x0000FF05 = .error .badArg ∧
    decode 0x00010305 = .error .reservedNonzero ∧ decode 0x00000102 = .error .reservedNonzero ∧
    decode 0x00010003 = .error .reservedNonzero ∧ decode 0x00000100 = .error .reservedNonzero ∧
    decode 0x00000007 = .error .illegalOpcode ∧ decode 0x0001FF07 = .error .illegalOpcode ∧
    decode 0x00FF0005 = .error .reservedNonzero := by decide

/-- R111: four bytes, least significant first; any other number of bytes is no command. -/
theorem test_decode_bytes :
    decodeBytes [0x05, 0x87, 0x00, 0x00] = .ok (.pad 135) ∧ decodeBytes [0x05, 0x87] = .error .badAccess := by decide

theorem test_decode_table_word :
    decodeTableWord 32 0x00000003 = some .permute ∧ decodeTableWord 32 0x00008605 = some (.pad 134) ∧
    decodeTableWord 32 0x00008805 = none ∧ decodeTableWord 32 0x00000007 = none := by decide

theorem test_assemble_pad :
    assemble ['P', 'A', 'D', ' ', '0', 'x', '8', '7'] = some 0x00008705 ∧ assemble ['P', 'A', 'D', ' ', '1', '3', '6'] = none ∧
    assemble ['P', 'A', 'D'] = none ∧ assemble ['N', 'O', 'P', ' ', '0'] = none := by decide

/-! ## The commands -/

/-- V-N1: nothing but BUSY changes; STATUS of a core with DVALID = 1 goes from 3 to 2. -/
theorem test_nop_lowers_busy :
    (status { pending .nop with dvalid := true } = 3) ∧
    nextAnd (exec .nop { pending .nop with dvalid := true }) (fun t => status t == 2) = true := by decide

/-- V-N3: INIT keeps ERR and ERRCODE. -/
theorem test_init_keeps_errors :
    nextAnd (exec .init { erred .badArg with pend := some .init, blockCount := 7, dvalid := true })
      (fun t => status t == 0x304 && t.blockCount == 0) = true := by decide

/-- INIT zeroes the state and the buffer. -/
theorem test_init_zeroes_data :
    nextAnd (exec .init { pending .init with lanes := oneLane 4 4 1, buf := onesBlock })
      (fun t => laneAt t.lanes 4 4 == 0 && blockByte t.buf 135 == 0) = true := by decide

/-- V-A2: the rate lanes are XOR-ed, the capacity lanes are not touched. -/
theorem test_absorb_leaves_the_capacity :
    nextAnd (exec .absorb { pending .absorb with lanes := setLaneAt (oneLane 1 3 0x3333) 2 3 0x1111, buf := onesBlock })
      (fun t => laneAt t.lanes 1 3 == 0xFFFFFFFFFFFFCCCC && laneAt t.lanes 2 3 == 0x1111 &&
        laneAt t.lanes 0 3 == 0xFFFFFFFFFFFFFFFF) = true := by decide

/-- V-A6, and R43: the count is modulo 2^32. -/
theorem test_absorb_counts_modulo :
    nextAnd (exec .absorb (pending .absorb)) (fun t => t.blockCount == 1 && !t.dvalid) = true ∧
    nextAnd (exec .absorb { pending .absorb with blockCount := 0xFFFFFFFF }) (fun t => t.blockCount == 0) = true := by decide

/-- V-P12, V-P7: PERMUTE of the zero state, lanes 0, 1, 7 and 24. -/
theorem test_permute_zero_state :
    nextAnd (exec .permute (pending .permute))
      (fun t => laneAt t.lanes 0 0 == 0xF1258F7940E1DDE7 && laneAt t.lanes 1 0 == 0x84D5CCF933C0478A &&
        laneAt t.lanes 2 1 == 0x8C5BDA0CD6192E76 && laneAt t.lanes 4 4 == 0xEAF1FF7B5CECA249) = true := by decide +kernel

/-- V-N4: ABSP after INIT and PAD 0 gives the lanes of the empty message's digest. -/
theorem test_absp_empty_message :
    nextAnd (exec .absp { pending .absp with buf := padBlock 0 (Vector.replicate 136 0) })
      (fun t => laneAt t.lanes 0 0 == 0x66D71EBFF8C6FFA7 && laneAt t.lanes 3 0 == 0x4A43F8804B0AD882 &&
        t.blockCount == 1) = true := by decide +kernel

/-- V-N5: the count wraps. -/
theorem test_absp_count_wraps :
    nextAnd (exec .absp { pending .absp with blockCount := 0xFFFFFFFF }) (fun t => t.blockCount == 0) = true := by decide

/-- V-D12. -/
theorem test_pad_3 :
    nextAnd (exec (.pad 3) { pending (.pad 3) with buf := onesBlock })
      (fun t => blockByte t.buf 2 == 0xFF && blockByte t.buf 3 == 0x06 && blockByte t.buf 4 == 0x00 &&
        blockByte t.buf 134 == 0x00 && blockByte t.buf 135 == 0x80) = true := by decide

/-- V-D14: the two pad bytes meet in one byte. -/
theorem test_pad_135 :
    nextAnd (exec (.pad 135) { pending (.pad 135) with buf := onesBlock })
      (fun t => blockByte t.buf 134 == 0xFF && blockByte t.buf 135 == 0x86) = true := by decide

/-- W6: lane bytes come out least significant first. -/
theorem test_squeeze_byte_order :
    nextAnd (exec .squeeze { pending .squeeze with lanes := oneLane 0 0 0x66D71EBFF8C6FFA7 })
      (fun t => digestByte t.dig 0 == 0xA7 && digestByte t.dig 1 == 0xFF && digestByte t.dig 7 == 0x66 && t.dvalid) = true := by
  decide

/-- R220: the digest's last byte is the top byte of lane (3,0); lane (4,0) is not read. -/
theorem test_squeeze_last_lane :
    nextAnd (exec .squeeze { pending .squeeze with lanes := setLaneAt (oneLane 3 0 0x4A43F8804B0AD882) 4 0 0xFF })
      (fun t => digestByte t.dig 31 == 0x4A && digestByte t.dig 24 == 0x82 && digestByte t.dig 0 == 0) = true := by decide

/-! ## The step mappings, V-T1 to V-P2 -/

theorem test_theta_wraps :
    laneAt (theta (oneLane 0 0 0x8000000000000000)) 4 3 = 1 ∧ laneAt (theta (oneLane 0 0 0x8000000000000000)) 1 2 = 0x8000000000000000 ∧
    laneAt (theta (oneLane 2 3 1)) 3 3 = 1 ∧ laneAt (theta (oneLane 2 3 1)) 1 0 = 2 := by decide

theorem test_rho_pi_moves :
    laneAt (rhoPi (oneLane 1 0 0x8000000000000000)) 0 2 = 1 ∧ laneAt (rhoPi (oneLane 0 1 1)) 1 3 = 0x0000001000000000 ∧
    laneAt (rhoPi (oneLane 2 0 1)) 0 4 = 0x4000000000000000 ∧ laneAt (rhoPi (oneLane 4 4 1)) 4 0 = 0x4000 := by decide

/-- V-C4: the row [1, 2, 3, 4, 5] becomes [0, 6, 2, 4, 7]. -/
theorem test_chi_row :
    (List.range 5).map (fun x => laneAt (chi (buildLanes fun x y => if y = 0 then BitVec.ofNat 64 (x + 1) else 0)) x 0)
      = [0, 6, 2, 4, 7] := by decide

theorem test_iota_rounds :
    laneAt (iota zeroLanes 1) 0 0 = 0x8082 ∧ laneAt (iota zeroLanes 23) 0 0 = 0x8000000080008008 ∧
    laneAt (iota zeroLanes 23) 1 0 = 0 := by decide

/-- V-P1, V-P2. -/
theorem test_two_rounds :
    keccakRound zeroLanes 0 = oneLane 0 0 1 ∧
    laneAt (keccakRound (oneLane 0 0 1) 1) 0 0 = 0x8083 ∧ laneAt (keccakRound (oneLane 0 0 1) 1) 1 1 = 0x200000200000 ∧
    laneAt (keccakRound (oneLane 0 0 1) 1) 4 4 = 0x4 := by decide

/-! ## The window, V-W1 to V-W24 -/

/-- V-W1, V-W2. -/
theorem test_window_state_bytes :
    let s := winWrite 0x000 .w8 0x0807060504030201 State.reset
    (winRead 0x001 .w1 s).1 = 0x02 ∧ (winRead 0x006 .w2 s).1 = 0x0807 ∧ (winRead 0x004 .w4 s).1 = 0x08070605 ∧
    laneAt s.lanes 0 0 = 0x0807060504030201 ∧
    (winRead 0x0C7 .w1 (winWrite 0x0C0 .w8 0x1122334455667788 State.reset)).1 = 0x11 := by decide +kernel

/-- V-W4. -/
theorem test_window_block_bytes :
    let s := winWrite 0x108 .w8 0x0F0E0D0C0B0A0908 State.reset
    blockByte s.buf 8 = 0x08 ∧ blockByte s.buf 15 = 0x0F ∧ blockByte s.buf 16 = 0 := by decide

/-- V-W3, V-W9, V-W10, V-W12, V-W13, V-W14: rejected writes change nothing but the error. -/
theorem test_window_rejected_writes :
    winWrite 0x0C8 .w8 1 State.reset = erred .badAccess ∧ winWrite 0x301 .w4 1 State.reset = erred .badAccess ∧
    winWrite 0x302 .w2 0 State.reset = erred .badAccess ∧ winWrite 0x300 .w8 1 State.reset = erred .badAccess ∧
    winWrite 0x201 .w1 0xFF State.reset = erred .badAccess ∧ winWrite 0x310 .w4 5 State.reset = erred .badAccess ∧
    status (erred .badAccess) = 0x504 := by decide +kernel

/-- V-W6, V-W7, V-W8, V-W11. -/
theorem test_window_reads :
    winRead 0x300 .w4 State.reset = (0, State.reset) ∧ winRead 0x304 .w4 State.reset = (0, erred .badAccess) ∧
    winRead 0x004 .w8 State.reset = (0, erred .badAccess) ∧ winRead 0x308 .w2 State.reset = (0, erred .badAccess) := by decide +kernel

/-- V-W15, V-W16. -/
theorem test_window_clear_errors :
    winWrite 0x308 .w4 0xFFFFFFFB (erred .badAccess) = erred .badAccess ∧
    winWrite 0x308 .w4 0x00000004 (erred .badAccess) = State.reset := by decide +kernel

/-- V-D15, V-W17 to V-W20, V-W24. -/
theorem test_window_command_errors :
    status (winWrite 0x300 .w4 0x00008805 State.reset) = 0x304 ∧ status (winWrite 0x300 .w4 0x00000007 State.reset) = 0x104 ∧
    status (winWrite 0x300 .w4 0x0001FF07 State.reset) = 0x104 ∧ status (winWrite 0x300 .w4 0x00FF0005 State.reset) = 0x204 ∧
    status (winWrite 0x300 .w4 0x00000007 (pending .permute)) = 0x405 ∧
    status (winWrite 0x300 .w4 0x00000007 (erred .badArg)) = 0x304 := by decide

/-- V-W21, V-S5: a STATE write is dropped while busy, and clears DVALID while idle. -/
theorem test_window_state_write :
    winWrite 0x000 .w8 1 (pending .permute) = { erred .busyViolation with pend := some .permute } ∧
    (winWrite 0x000 .w1 0 { State.reset with dvalid := true }).dvalid = false := by decide +kernel

/-! ## The end of the driver -/

/-- R245: `d` is returned for `st` = 2 alone of these; `st[2]` = 1 or `st[1]` = 0 fails. -/
theorem test_driver_fails_on_status :
    (Observation.digest ⟨2, Vector.replicate 32 7⟩ = some (Vector.replicate 32 7)) ∧
    Observation.digest ⟨0, Vector.replicate 32 7⟩ = none ∧ Observation.digest ⟨0x306, Vector.replicate 32 7⟩ = none := by decide

/-- W6, P1: the words of the four reads give the digest's bytes, least significant first. -/
theorem test_driver_digest_bytes :
    (observeReads [0x4A43F8804B0AD882, 0xFA493BE44DFF80F5, 0x62D661A05647C151, 0x66D71EBFF8C6FFA7, 2]).any
      (fun o => o.st == 2 && digestByte o.d 0 == 0xA7 && digestByte o.d 7 == 0x66 && digestByte o.d 8 == 0x51 &&
        digestByte o.d 31 == 0x4A) = true ∧
    observeReads [0, 0, 0, 0] = none := by decide

/-! ## Steps -/

/-- The very next step runs a placed command. -/
theorem test_step_runs_placed_word :
    nextAnd (step (State.reset.withFetchWord 32 0x00000006)) (fun t => t.dvalid && !t.busy) = true := by decide

/-- A reset turn discards a pending command (R300). -/
theorem test_step_reset :
    step { pending .absorb with sched := [.reset], blockCount := 3, dvalid := true } = .next State.reset := rfl

/-- With nothing to do a step changes nothing (log 8). -/
theorem test_step_idle : step State.reset = .next State.reset := rfl

/-! ## Witnesses: states and operands that meet the hypotheses of the obligations -/

theorem witness_EncodedCommandDecodes : (Instr.pad 135).WellFormed ∧ Instr.init.WellFormed := by decide

theorem witness_LegalWordsAreExactlyTheTable :
    decode 0x00008705 = .ok (.pad 135) ∧ decode 0x00000006 = .ok .squeeze ∧ decode 0x00008805 = .error .badArg := by decide

theorem witness_AssemblerSpellsCommandWords :
    (135 : Nat) ≤ 135 ∧ (135 : Nat) < 136 ∧ ['N', 'O', 'P'] ≠ ['P', 'A', 'D'] := by decide

theorem witness_IssueCommandChecksInOrder :
    commandError State.reset 0x00000007 = some .illegalOpcode ∧ commandError State.reset 0x00010305 = some .reservedNonzero ∧
    commandError State.reset 0x00000102 = some .reservedNonzero ∧ commandError State.reset 0x00008805 = some .badArg ∧
    commandError (pending .nop) 0x00000007 = some .busyViolation ∧ commandError State.reset 0x00008705 = none ∧
    commandError State.reset 0x00000006 = none := by decide

theorem witness_StepRunsPendingCommand :
    State.Completes { pending .absorb with sched := [.engine, .host] } .absorb ∧ State.Completes (pending (.pad 3)) (.pad 3) :=
  ⟨⟨rfl, rfl⟩, ⟨rfl, rfl⟩⟩

theorem witness_PlacedWordRunsNext : (Instr.pad 0).WellFormed ∧ Instr.permute.WellFormed := by decide

/-- The state of `CommandWrittenToCmdRuns`: the host is about to write the word of PAD 3, then the ENGINE moves. -/
theorem witness_CommandWrittenToCmdRuns :
    (Instr.pad 3).WellFormed ∧ (0x00000305 : BitVec 64).extractLsb' 0 32 = encode (.pad 3) ∧
    let s := scheduled [.host, .engine] [.write (Config.coreBase + 0x300) .w4 0x305]
    s.pend = none ∧ s.sched = .host :: .engine :: [] ∧ s.host = .write (Config.coreBase + 0x300) .w4 0x305 :: [] :=
  ⟨by decide, by decide, rfl, rfl, rfl⟩

theorem witness_HostStepAccessesWindow :
    (let s := scheduled [.host] [.write (Config.coreBase + 0x3FF) .w1 0]
     currentTurn s = .host ∧ 0x3FF < 0x400 ∧ s.host = .write (Config.coreBase + 0x3FF) .w1 0 :: []) ∧
    let s := scheduled [] [.read (Config.coreBase + 0) .w8]
    currentTurn s = .host ∧ 0 < 0x400 ∧ s.host = .read (Config.coreBase + 0) .w8 :: [] :=
  ⟨⟨rfl, by decide, rfl⟩, rfl, by decide, rfl⟩

theorem witness_AccessOutsideWindowHasNoEffect :
    (let s := scheduled [.host] [.read (Config.coreBase + 0x400) .w4]
     currentTurn s = .host ∧ Config.coreBase + 0x400 ≤ Config.coreBase + 0x400 ∧
     s.host = .read (Config.coreBase + 0x400) .w4 :: []) ∧
    let s := scheduled [.host] [.write (Config.coreBase + 0x400) .w8 1]
    currentTurn s = .host ∧ Config.coreBase + 0x400 ≤ Config.coreBase + 0x400 ∧
    s.host = .write (Config.coreBase + 0x400) .w8 1 :: [] := ⟨⟨rfl, Nat.le_refl _, rfl⟩, rfl, Nat.le_refl _, rfl⟩

theorem witness_WaitPollsUntilIdle :
    (let s := scheduled [.host] [.wait]
     currentTurn s = .host ∧ s.host = .wait :: [] ∧ s.pend = none) ∧
    let s := { pending .nop with sched := [.host], host := [.wait] }
    currentTurn s = .host ∧ s.host = .wait :: [] ∧ s.pend ≠ none := by decide

theorem witness_ResetTurnDiscardsEverything :
    currentTurn { pending .squeeze with sched := [.reset], dvalid := true, buf := onesBlock } = .reset := rfl

theorem witness_PadCompletes : (0 : BitVec 8).toNat ≤ 135 ∧ (134 : BitVec 8).toNat ≤ 135 ∧ (135 : BitVec 8).toNat ≤ 135 := by decide

theorem witness_IllFormedPadIsRefused :
    (135 < (136 : BitVec 8).toNat ∧ 135 < (255 : BitVec 8).toNat) ∧
    State.reset.pend = none ∧ (issueCommand 0x00008705 State.reset).pend = some (.pad 135) := by decide

/-- Two cores that differ in the state and the buffer. -/
theorem witness_InitForgetsEarlierHash :
    let s := { State.reset with lanes := oneLane 0 0 1, buf := onesBlock, blockCount := 9, dvalid := true }
    s.err = State.reset.err ∧ s.errCode = State.reset.errCode ∧ s.host = State.reset.host ∧ s.sched = State.reset.sched ∧
    s.responses = State.reset.responses ∧ s.draws = State.reset.draws ∧ s.lanes ≠ State.reset.lanes := by decide

theorem witness_RotationMovesBits : 0 < 64 ∧ 63 < 64 := by decide

theorem witness_lane_indices : (0 < 5 ∧ 4 < 5) ∧ (24 < 25 ∧ 23 < 24 ∧ 16 < 17) ∧ ((3 = 3 ∧ 2 ≤ 2) ∨ 3 = 4) := by decide

theorem witness_PaddingBlocks :
    (0 < (List.replicate 136 (0x61 : Byte)).length / 136 ∧ 135 < 136) ∧ 0 < 136 := by decide +kernel

/-- "abc" in the buffer in front of old bytes. -/
theorem witness_PadMakesTheFinalBlock :
    let M : List Byte := [0x61, 0x62, 0x63]
    let s := { State.reset with buf := setBlockByte (setBlockByte (setBlockByte onesBlock 0 0x61) 1 0x62) 2 0x63 }
    ∀ j, j < M.length % 136 → blockByte s.buf j = M.getD (136 * (M.length / 136) + j) 0 := by decide

theorem witness_PaddingIsInjective : pad [0x61] = pad [0x61] := rfl

/-- Two states that differ only in a lane the digest does not read. -/
theorem witness_SqueezeReadsFourLanes :
    (∀ i, i < 4 → laneAt (oneLane 4 0 1) i 0 = laneAt zeroLanes i 0) ∧ oneLane 4 0 1 ≠ zeroLanes := by decide

theorem witness_WindowByteMap : (24 < 25 ∧ 7 < 8) ∧ 135 < 136 ∧ 31 < 32 := by decide

/-- The edges of the three data regions. -/
theorem witness_DataReadReturnsBytes :
    State.reset.pend = none ∧
    (0x000 % Width.w8.bytes = 0 ∧ 0x0C0 % Width.w8.bytes = 0 ∧ 0x0C0 + Width.w8.bytes ≤ 0x0C8) ∧
    (0x100 % Width.w1.bytes = 0 ∧ 0x180 % Width.w8.bytes = 0 ∧ 0x180 + Width.w8.bytes ≤ 0x188) ∧
    (0x21F % Width.w1.bytes = 0 ∧ 0x200 ≤ 0x21F ∧ 0x21F + Width.w1.bytes ≤ 0x220) := by decide

theorem witness_StateWriteChangesItsBytes :
    State.reset.pend = none ∧ 0x0C0 % Width.w8.bytes = 0 ∧ 0x0C0 + Width.w8.bytes ≤ 0x0C8 := by decide

theorem witness_BlockWriteChangesItsBytes :
    State.reset.pend = none ∧ 0x187 % Width.w1.bytes = 0 ∧ 0x100 ≤ 0x187 ∧ 0x187 + Width.w1.bytes ≤ 0x188 := by decide

theorem witness_MixedWidthReadSeesBytes :
    State.reset.pend = none ∧ 0x108 % Width.w8.bytes = 0 ∧ 0x10E % Width.w2.bytes = 0 ∧
    (0x100 ≤ 0x108 ∧ 0x108 + Width.w8.bytes ≤ 0x188) ∧ (0x100 ≤ 0x10E ∧ 0x10E + Width.w2.bytes ≤ 0x188) := by decide

theorem witness_MisalignedAccessIsBadAccess : 0x301 % Width.w4.bytes ≠ 0 ∧ 0x0C0 % Width.w8.bytes = 0 := by decide

/-- Both edges of every gap of the register map are reserved; their neighbours are not. -/
theorem witness_ReservedOffsetIsBadAccess :
    (∀ o ∈ [0x0C8, 0x0FF, 0x188, 0x1FF, 0x220, 0x2FF, 0x304, 0x307, 0x30C, 0x30F, 0x314, 0x3FF], o < 0x400 ∧ reservedOffset o) ∧
    ∀ o ∈ [0x000, 0x0C7, 0x100, 0x187, 0x200, 0x21F, 0x300, 0x303, 0x308, 0x30B, 0x310, 0x313], ¬ reservedOffset o := by decide

/-- Every line of the priority list, and accesses without an error. -/
theorem witness_AccessErrorsFollowPriority :
    accessError State.reset 0x0CA .w4 none = some .badAccess ∧ accessError State.reset 0x0C8 .w8 none = some .badAccess ∧
    accessError State.reset 0x308 .w2 none = some .badAccess ∧ accessError State.reset 0x200 .w1 (some 1) = some .badAccess ∧
    accessError State.reset 0x310 .w4 (some 1) = some .badAccess ∧
    accessError (pending .nop) 0x187 .w1 (some 1) = some .busyViolation ∧
    accessError (pending .nop) 0x300 .w4 (some 7) = some .busyViolation ∧
    accessError State.reset 0x300 .w4 (some 7) = some .illegalOpcode ∧
    accessError State.reset 0x300 .w4 (some 6) = none ∧ accessError (pending .nop) 0x308 .w4 (some 4) = none ∧
    accessError (pending .nop) 0x000 .w8 none = none := by decide

theorem witness_StatusWriteClearsErrors :
    (let s := { erred .badArg with sched := [.reset] }
     currentTurn s = .reset ∧ step s = .next State.reset) ∧
    exec .init { erred .badArg with pend := some .init } = .next (erred .badArg) := ⟨⟨rfl, rfl⟩, rfl⟩

theorem witness_BusyDataAccess :
    (pending .permute).pend ≠ none ∧ 0x0C0 % Width.w8.bytes = 0 ∧ 0x0C0 + Width.w8.bytes ≤ 0x0C8 ∧
    (0x100 ≤ 0x187 ∧ 0x187 + Width.w1.bytes ≤ 0x188) ∧ (0x200 ≤ 0x21C ∧ 0x21C + Width.w4.bytes ≤ 0x220) := by decide

/-- A consistent state that is not the reset state: an error recorded, a digest valid, PAD pending; and its step. -/
theorem witness_StepKeepsConsistent :
    let s := { erred .badAccess with dvalid := true, pend := some (.pad 135) }
    s.Consistent ∧ step s = .next { erred .badAccess with dvalid := true, buf := padBlock 135 State.reset.buf } := by
  refine ⟨⟨rfl, ?_, ?_⟩, rfl⟩
  · rintro i ⟨⟩
    decide
  · intro _
    decide

theorem witness_StepNeverStops :
    State.reset.Consistent ∧ currentTurn { pending .squeeze with sched := [.engine] } = .engine := by
  refine ⟨⟨rfl, ?_, ?_⟩, rfl⟩
  · rintro i ⟨⟩
  · rintro ⟨⟩

/-- A step that changes the state: ABSORB of a block of ones. -/
theorem witness_WritersOfTheState :
    let s := { pending .absorb with buf := onesBlock }
    s.Completes .absorb ∧ ∃ t, step s = .next t ∧ t.lanes ≠ s.lanes := ⟨⟨rfl, rfl⟩, _, rfl, by decide⟩

/-- A step that changes the state: the host's write to the last STATE byte. -/
theorem witness_AcceptedWrite :
    let s := scheduled [.host] [.write (Config.coreBase + 0x0C7) .w1 0xFF]
    s.AcceptedWrite 0x000 0x0C7 ∧ step s = .next (winWrite 0x0C7 .w1 0xFF State.reset) ∧
    (winWrite 0x0C7 .w1 0xFF State.reset).lanes ≠ State.reset.lanes := by
  refine ⟨⟨rfl, rfl, 0x0C7, .w1, 0xFF, [], rfl, by decide, by decide, by decide⟩, ?_, by decide⟩
  simp only [step, scheduled, currentTurn, performTurn, hostTurn, State.setSched, hostWrite,
    windowOffset_add Config.coreBase 0x0C7 (by decide)]
  rfl

/-- Steps that change the buffer and the digest. -/
theorem witness_WritersOfBufferAndDigest :
    (let s := pending (.pad 0)
     ∃ t, step s = .next t ∧ t.buf ≠ s.buf) ∧
    let s := { pending .squeeze with lanes := oneLane 0 0 1 }
    ∃ t, step s = .next t ∧ t.dig ≠ s.dig := ⟨⟨_, rfl, by decide +kernel⟩, _, rfl, by decide +kernel⟩

/-- Each clause of the counter's rule: ABSORB at the top of the count, INIT, reset, and PAD. -/
theorem witness_BlockCountRule :
    (let s := { pending .absorb with blockCount := 0xFFFFFFFF }
     s.Completes .absorb ∧ nextAnd (step s) (fun t => t.blockCount == 0) = true) ∧
    (let s := { pending .init with blockCount := 5 }
     s.Completes .init ∧ nextAnd (step s) (fun t => t.blockCount == 0) = true) ∧
    (let s := { scheduled [.reset] [] with blockCount := 5 }
     currentTurn s = .reset ∧ nextAnd (step s) (fun t => t.blockCount == 0) = true) ∧
    let s := { pending (.pad 135) with blockCount := 5 }
    s.Completes (.pad 135) ∧ nextAnd (step s) (fun t => t.blockCount == 5) = true :=
  ⟨⟨⟨rfl, rfl⟩, by decide⟩, ⟨⟨rfl, rfl⟩, by decide⟩, ⟨rfl, by decide⟩, ⟨rfl, rfl⟩, by decide⟩

/-- Clauses of DVALID's rule: SQUEEZE sets it, ABSORB clears it, PAD leaves it, a busy poll leaves it. -/
theorem witness_DvalidRule :
    (let s := pending .squeeze
     s.Completes .squeeze ∧ nextAnd (step s) (fun t => t.dvalid) = true) ∧
    (let s := { pending .absorb with dvalid := true }
     s.Completes .absorb ∧ nextAnd (step s) (fun t => !t.dvalid) = true) ∧
    (let s := { pending (.pad 1) with dvalid := true }
     s.Completes (.pad 1) ∧ nextAnd (step s) (fun t => t.dvalid) = true) ∧
    let s := { pending .nop with sched := [.host], host := [.wait], dvalid := true }
    s.pend ≠ none ∧ currentTurn s = .host ∧ nextAnd (step s) (fun t => t.dvalid) = true :=
  ⟨⟨⟨rfl, rfl⟩, by decide⟩, ⟨⟨rfl, rfl⟩, by decide⟩, ⟨⟨rfl, rfl⟩, by decide⟩, by decide⟩

/-- BUSY rises at an accepted command word, stays down at a rejected one, and falls at the completion. -/
theorem witness_BusyRule :
    (let s := scheduled [.host] [.write (Config.coreBase + 0x300) .w4 0]
     s.pend = none ∧ currentTurn s = .host ∧ commandError s 0 = none ∧ step s = .next (pending .nop)) ∧
    (let s := scheduled [.host] [.write (Config.coreBase + 0x300) .w4 7]
     s.pend = none ∧ currentTurn s = .host ∧ commandError s 7 = some .illegalOpcode ∧ step s = .next (erred .illegalOpcode)) ∧
    let s := pending .nop
    s.Completes .nop ∧ step s = .next State.reset := by
  refine ⟨⟨rfl, rfl, by decide, ?_⟩, ⟨rfl, rfl, by decide, ?_⟩, ⟨rfl, rfl⟩, rfl⟩
  all_goals
    simp only [step, scheduled, currentTurn, performTurn, hostTurn, State.setSched, hostWrite,
      windowOffset_add Config.coreBase 0x300 (by decide)]
    rfl

/-- A recorded error is cleared by the host's write to STATUS. -/
theorem witness_ErrCodeRule :
    (State.reset.Consistent ∧ State.reset.err = false) ∧
    let s := { erred .badArg with sched := [.host], host := [.write (Config.coreBase + 0x308) .w4 4] }
    s.err = true ∧ step s = .next State.reset := by
  refine ⟨⟨witness_StepNeverStops.1, rfl⟩, rfl, ?_⟩
  simp only [step, erred, currentTurn, performTurn, hostTurn, State.setSched, hostWrite,
    windowOffset_add Config.coreBase 0x308 (by decide)]
  rfl

/-- A host step while a command is pending. -/
theorem witness_PendingCommandIsUndisturbed :
    let s := { pending .permute with sched := [.host], host := [.write (Config.coreBase + 0) .w8 1] }
    s.pend ≠ none ∧ currentTurn s = .host ∧ step s = .next { erred .busyViolation with pend := some .permute } := by
  refine ⟨by simp [pending], rfl, ?_⟩
  simp only [step, pending, currentTurn, performTurn, hostTurn, State.setSched, hostWrite,
    windowOffset_add Config.coreBase 0 (by decide)]
  rfl

theorem witness_EveryRunEndsIdle : State.reset.Consistent := witness_StepNeverStops.1

/-- A core without an error. -/
def core (L : Lanes) (B : Block) (D : Digest) (n : BitVec 32) (dv : Bool) (p : Option Instr) (ops : List HostOp)
    (ts : List Turn) (rs : List (BitVec 64)) : State := ⟨L, B, D, dv, false, none, n, p, ops, ts, rs, 0⟩

/-- What STATUS reads as in an idle one. -/
def idleStatus (dv : Bool) : BitVec 64 := if dv then 2 else 0

theorem core_status (L : Lanes) (B : Block) (D : Digest) (n : BitVec 32) (dv : Bool) (ops : List HostOp) (ts : List Turn)
    (rs : List (BitVec 64)) : statusWord (core L B D n dv none ops ts rs) = idleStatus dv := by
  simp only [statusWord, State.busy, errCodeBits, core]
  cases dv <;> rfl

theorem core_poll (L : Lanes) (B : Block) (D : Digest) (n : BitVec 32) (dv : Bool) (ops : List HostOp) (ts : List Turn)
    (rs : List (BitVec 64)) :
    step (core L B D n dv none (.wait :: ops) (.host :: ts) rs) = .next (core L B D n dv none ops ts (idleStatus dv :: rs)) := by
  rw [step_host rfl, hostTurn_poll_idle (ops := ops) rfl rfl]
  change Host.Outcome.next ((core L B D n dv none ops ts rs).respond (statusWord (core L B D n dv none (.wait :: ops) ts rs))) = _
  rw [core_status]
  rfl

theorem core_issue (i : Instr) (hd : decode (((encode i).setWidth 64).extractLsb' 0 32) = .ok i) (L : Lanes) (B : Block)
    (D : Digest) (n : BitVec 32) (dv : Bool) (ops : List HostOp) (ts : List Turn) (rs : List (BitVec 64)) :
    step (core L B D n dv none (command i :: ops) (.host :: ts) rs) = .next (core L B D n dv (some i) ops ts rs) := by
  rw [step_host rfl, hostTurn_wr (ops := ops) rfl (by decide), winWrite_cmd]
  simp only [issueCommand, hd]
  rfl

theorem core_read (w : Width) (o : Nat) (ho : o < 0x400) (v : BitVec 64) (L : Lanes) (B : Block) (D : Digest)
    (n : BitVec 32) (dv : Bool) (ops : List HostOp) (ts : List Turn) (rs : List (BitVec 64))
    (hv : winRead o w (core L B D n dv none ops ts rs) = (v, core L B D n dv none ops ts rs)) :
    step (core L B D n dv none (rd w o :: ops) (.host :: ts) rs) = .next (core L B D n dv none ops ts (v :: rs)) := by
  rw [step_host rfl, hostTurn_rd (ops := ops) rfl ho]
  change Host.Outcome.next ((winRead o w (core L B D n dv none ops ts rs)).2.respond (winRead o w (core L B D n dv none ops ts rs)).1) = _
  rw [hv]
  rfl

/-- The value of a digest read. -/
def digestWord (D : Digest) (i : Nat) : BitVec 64 := laneOfBytes fun j => digestByte D (8 * i + j)

theorem core_read_digest (i : Nat) (hi : i < 4) (L : Lanes) (B : Block) (D : Digest) (n : BitVec 32) (dv : Bool) (ops : List HostOp)
    (ts : List Turn) (rs : List (BitVec 64)) :
    step (core L B D n dv none (rd .w8 (0x200 + 8 * i) :: ops) (.host :: ts) rs) =
      .next (core L B D n dv none ops ts (digestWord D i :: rs)) := by
  apply core_read .w8 _ (by omega)
  have ha : (0x200 + 8 * i) % Width.w8.bytes = 0 := by simp [Width.bytes]
  rw [winRead_data rfl ha (by simp [Width.bytes]; omega)]
  refine congrArg (fun x => (x, _)) (laneOfBytes_congr fun j hj => ?_)
  rw [winByte, if_neg (by omega), if_neg (by omega), if_pos (by omega)]
  exact congrArg (digestByte D) (by omega)

/-- A schedule for the driver of the empty message: a reset before anything, each command completed before the poll that follows it, and a
reset after the last read. -/
def emptySchedule : List Turn :=
  .reset :: .host :: .host :: .host :: .engine :: .host :: .host :: .engine :: .host :: .host :: .engine :: .host ::
    .host :: .engine :: .host :: .host :: .host :: .host :: .host :: .host :: .reset :: []

/-- A core with a command pending and something in its buffer, about to run that driver. -/
def emptyStart : State := { pending .absorb with buf := onesBlock, host := driver [], sched := emptySchedule }

/-- The state before the last read of that run. -/
def beforeLastRead : State :=
  let B := padBlock 0 (Vector.replicate 136 0)
  let L := keccakF (absorb zeroLanes B)
  let D := squeeze L
  core L B D 1 true none [rd .w8 (0x200 + 8 * 3)] [.host, .reset]
    [digestWord D 2, digestWord D 1, digestWord D 0, 2, 2, 0, 0, 0, 0]

/-- The state after it. -/
def afterLastRead : State :=
  let B := padBlock 0 (Vector.replicate 136 0)
  let L := keccakF (absorb zeroLanes B)
  let D := squeeze L
  core L B D 1 true none [] [.reset]
    [digestWord D 3, digestWord D 2, digestWord D 1, digestWord D 0, 2, 2, 0, 0, 0, 0]

/-- The first three steps of that run: the reset, `clrerr`, and the only poll of the first `wait`. -/
theorem run_first_wait :
    run 3 emptyStart = .next (core zeroLanes (Vector.replicate 136 0) (Vector.replicate 32 0) 0 false none (driver []).tail.tail
      (emptySchedule.drop 3) [0]) := by
  have h1 : step emptyStart = .next (core zeroLanes (Vector.replicate 136 0) (Vector.replicate 32 0) 0 false none (driver [])
      emptySchedule.tail []) := rfl
  have h2 : step (core zeroLanes (Vector.replicate 136 0) (Vector.replicate 32 0) 0 false none (driver []) emptySchedule.tail []) =
      .next (core zeroLanes (Vector.replicate 136 0) (Vector.replicate 32 0) 0 false none (driver []).tail
        (emptySchedule.drop 2) []) := by
    rw [step_host rfl, hostTurn_wr (ops := (driver []).tail) rfl (by decide)]
    rfl
  rw [run_succ 2 h1, run_succ 1 h2, run_one]
  exact core_poll _ _ _ _ _ _ _ _

/-- The whole run (program P1 of spec/95_test_vectors.md, behind a reset), up to its last read. -/
theorem run_before_last_read : run 19 emptyStart = .next beforeLastRead := by
  have c1 : ∀ ops ts rs, step (core zeroLanes (Vector.replicate 136 0) (Vector.replicate 32 0) 0 false (some .init) ops (.engine :: ts) rs) =
      .next (core zeroLanes (Vector.replicate 136 0) (Vector.replicate 32 0) 0 false none ops ts rs) := fun ops ts rs =>
    (step_engine rfl rfl).trans (exec_init _)
  have c2 : ∀ B ops ts rs, step (core zeroLanes B (Vector.replicate 32 0) 0 false (some (.pad 0)) ops (.engine :: ts) rs) =
      .next (core zeroLanes (padBlock 0 B) (Vector.replicate 32 0) 0 false none ops ts rs) := fun B ops ts rs =>
    (step_engine (i := .pad 0) rfl rfl).trans (exec_pad 0 _ (by decide))
  have c3 : ∀ L B D ops ts rs, step (core L B D 0 false (some .absp) ops (.engine :: ts) rs) =
      .next (core (keccakF (absorb L B)) B D 1 false none ops ts rs) := fun L B D ops ts rs =>
    (step_engine rfl rfl).trans (exec_absp _)
  have c4 : ∀ L B D n ops ts rs, step (core L B D n false (some .squeeze) ops (.engine :: ts) rs) =
      .next (core L B (squeeze L) n true none ops ts rs) := fun L B D n ops ts rs =>
    (step_engine rfl rfl).trans (exec_squeeze _)
  rw [show (19 : Nat) = 3 + 16 from rfl, run_add 16 run_first_wait]
  change run 16 (core zeroLanes (Vector.replicate 136 0) (Vector.replicate 32 0) 0 false none
    [command .init, .wait, command (.pad 0), .wait, command .absp, .wait, command .squeeze, .wait, rd .w4 0x308,
      rd .w8 (0x200 + 8 * 0), rd .w8 (0x200 + 8 * 1), rd .w8 (0x200 + 8 * 2), rd .w8 (0x200 + 8 * 3)]
    [.host, .engine, .host, .host, .engine, .host, .host, .engine, .host, .host, .engine, .host, .host, .host, .host, .host,
      .host, .reset] [0]) = _
  rw [run_succ 15 (core_issue .init (by decide) _ _ _ _ _ _ _ _), run_succ 14 (c1 _ _ _), run_succ 13 (core_poll _ _ _ _ _ _ _ _),
    run_succ 12 (core_issue (.pad 0) (by decide) _ _ _ _ _ _ _ _), run_succ 11 (c2 _ _ _ _), run_succ 10 (core_poll _ _ _ _ _ _ _ _),
    run_succ 9 (core_issue .absp (by decide) _ _ _ _ _ _ _ _), run_succ 8 (c3 _ _ _ _ _ _), run_succ 7 (core_poll _ _ _ _ _ _ _ _),
    run_succ 6 (core_issue .squeeze (by decide) _ _ _ _ _ _ _ _), run_succ 5 (c4 _ _ _ _ _ _ _), run_succ 4 (core_poll _ _ _ _ _ _ _ _),
    run_succ 3 (core_read .w4 0x308 (by decide) 2 _ _ _ _ _ _ _ _ (by rw [winRead_status, core_status]; rfl)),
    run_succ 2 (core_read_digest 0 (by decide) _ _ _ _ _ _ _ _), run_succ 1 (core_read_digest 1 (by decide) _ _ _ _ _ _ _ _),
    run_one]
  exact core_read_digest 2 (by decide) _ _ _ _ _ _ _ _

theorem step_last_read : step beforeLastRead = .next afterLastRead := core_read_digest 3 (by decide) _ _ _ _ _ _ _ _

/-- That schedule names a reset for the first turn and for the turn after the last read only. -/
theorem reset_turns_of_emptyStart {m : Nat} {u : State} (h : run m emptyStart = .next u) (hc : currentTurn u = .reset) :
    (m = 0 ∧ u = emptyStart) ∨ (m = 20 ∧ u = afterLastRead) := by
  obtain ⟨ts, hs⟩ := sched_of_reset hc
  rw [run_sched h] at hs
  have hm : m < 21 := by
    by_contra hn
    have : emptySchedule.drop m = [] := List.drop_eq_nil_of_le (Nat.le_of_not_lt hn)
    rw [show emptyStart.sched = emptySchedule from rfl, this] at hs
    cases hs
  have key : ∀ m, m < 21 → (emptySchedule.drop m).head? = some .reset → m = 0 ∨ m = 20 := by decide
  rcases key m hm (by rw [show emptySchedule.drop m = .reset :: ts from hs]; rfl) with rfl | rfl
  · exact .inl ⟨rfl, (Host.Outcome.next.inj h).symm⟩
  · refine .inr ⟨rfl, ?_⟩
    rw [show (20 : Nat) = 19 + 1 from rfl, run_add 1 run_before_last_read, run_one, step_last_read] at h
    exact (Host.Outcome.next.inj h).symm

theorem emptyStart_consistent : emptyStart.Consistent := by
  refine ⟨rfl, ?_, ?_⟩
  · rintro i ⟨⟩
    decide
  · rintro ⟨⟩

theorem emptyStart_noResetWithin : emptyStart.NoResetWithin := by
  intro m u h hc
  rcases reset_turns_of_emptyStart h hc with ⟨-, rfl⟩ | ⟨-, rfl⟩
  · exact .inl rfl
  · exact .inr rfl

/-- Both ways in which a reset is admitted: before the first `wait`, and after the last read. -/
theorem witness_DriverComputesHash : emptyStart.Consistent ∧ emptyStart.host = driver [] ∧ emptyStart.NoResetWithin :=
  ⟨emptyStart_consistent, rfl, emptyStart_noResetWithin⟩

theorem witness_DriverReturnsHash : emptyStart.Consistent ∧ State.NoResetWithin { emptyStart with host := driver [] } :=
  ⟨emptyStart_consistent, emptyStart_noResetWithin⟩

/-- The converse clause: the run performs its last read, and no reset came since its first `wait`. -/
theorem witness_DriverRunEndsAtLastRead_end :
    run 19 { emptyStart with host := driver [] } = .next beforeLastRead ∧ currentTurn beforeLastRead = .host ∧
    beforeLastRead.host = [.read (Config.coreBase + 0x218) .w8] ∧ step beforeLastRead = .next afterLastRead ∧
    ∀ n v, n < 19 → run n { emptyStart with host := driver [] } = .next v → currentTurn v = .reset →
      v.responses = emptyStart.responses := by
  refine ⟨run_before_last_read, rfl, rfl, step_last_read, fun n v hn h hc => ?_⟩
  rcases reset_turns_of_emptyStart h hc with ⟨-, rfl⟩ | ⟨rfl, -⟩
  · rfl
  · omega

/-- A run that has an observation: the digest that it returns passes the driver's test. -/
theorem witness_DriverRunEndsAtLastRead_observation : ∃ o, runDriver [] 20 emptyStart = some o := by
  have lift : ∀ (m : Nat) (q : State), m ≤ 19 → q.sched = emptySchedule.drop (19 - m) → (m < 19 ∨ q.responses = []) →
      run m q = .next beforeLastRead → observeRun [] (m + 1) q = afterLastRead.observation := by
    intro m
    induction m with
    | zero =>
      intro q _ _ _ h
      obtain rfl := Host.Outcome.next.inj h
      rw [observeRun_step 0 (observation_of_host_ne (by simp [beforeLastRead, core])) (by intro hc; cases hc) step_last_read]
      rfl
    | succ m ih =>
      intro q hm hs hr h
      have hne := host_ne_of_run h (by simp [beforeLastRead, core])
      cases hst : step q with
      | next u =>
        rw [run_succ m hst] at h
        rw [observeRun_step (m + 1) (observation_of_host_ne hne) ?_ hst]
        · refine ih u (by omega) ?_ (.inl hm) h
          rw [step_sched hst, hs, List.tail_drop]
          congr 1
          omega
        · intro hc
          rcases hr with hr | hr
          · obtain ⟨ts, hx⟩ := sched_of_reset hc
            rw [hs] at hx
            have key : ∀ m, m < 18 → (emptySchedule.drop (19 - (m + 1))).head? ≠ some .reset := by decide
            exact absurd (by rw [hx]; rfl) (key m (by omega))
          · exact hr
      | fault r => cases r
      | refused r =>
        rw [run, hst] at h
        cases h
  exact ⟨_, (lift 19 emptyStart (Nat.le_refl _) rfl (.inr rfl) run_before_last_read).trans rfl⟩

/-- A run with an operation left; and one that a reset meets when its first `wait` has read. -/
theorem witness_DriverRunEndsAtLastRead_none :
    (run 0 { emptyStart with host := driver [] } = .next emptyStart ∧ emptyStart.host ≠ []) ∧
    let q := scheduled [.host, .host, .reset] (driver [0x61])
    ∃ u, run 2 { q with host := driver [0x61] } = .next u ∧ u.host ≠ [] ∧ currentTurn u = .reset ∧ u.responses ≠ q.responses := by
  refine ⟨⟨rfl, by simp [emptyStart, driver]⟩, ?_⟩
  have h1 : step (scheduled [.host, .host, .reset] (driver [0x61])) = .next (core zeroLanes (Vector.replicate 136 0)
      (Vector.replicate 32 0) 0 false none (driver [0x61]).tail [.host, .reset] []) := by
    rw [step_host rfl, hostTurn_wr (ops := (driver [0x61]).tail) rfl (by decide)]
    rfl
  refine ⟨_, (run_succ 1 h1).trans ((run_one _).trans (core_poll _ _ _ _ _ _ _ _)), ?_, rfl, ?_⟩
  · simp [core]
  · simp [core, scheduled, State.reset]

end Sys2Proof.Tests
end

/-! PROOFS. The state's status fields (spec/10_state.md): DVALID (R40), BUSY (R39), ERR and ERRCODE (R42), and reset (R50). -/

namespace Sys2Proof.Machine

/-! ## What the due turn does, in the words of the statements -/

/-- When the ENGINE is about to complete `i`, the step is `i`'s completion (R48). -/
theorem step_of_completes {s : State} {i : Instr} (h : s.Completes i) : step s = exec i (s.setSched s.sched.tail) :=
  step_engine h.1 h.2

/-- A host write inside the window is `WinWrite` at its offset, the operation taken off the host's program (R14, R70). -/
theorem hostTurn_write {s : State} {o : Nat} {w : Width} {v : BitVec 64} {ops : List HostOp}
    (hh : s.host = .write (Config.coreBase + o) w v :: ops) (ho : o < 0x400) :
    hostTurn s = winWrite o w v (s.setHost ops) := by
  simp only [hostTurn, hh, hostWrite, windowOffset_add _ _ ho]

/-! ## DVALID (R40) -/

/-- What each completion does to DVALID (R40). -/
theorem exec_dvalid {i : Instr} {s t : State} (h : exec i s = .next t) :
    (i = .squeeze → t.dvalid = true) ∧
    ((i = .init ∨ i = .absorb ∨ i = .permute ∨ i = .absp) → t.dvalid = false) ∧
    (i ≠ .squeeze → i ≠ .init → i ≠ .absorb → i ≠ .permute → i ≠ .absp → t.dvalid = s.dvalid) := by
  cases i with
  | nop => rw [exec_nop] at h; obtain rfl := Host.Outcome.next.inj h; simp
  | init => rw [exec_init] at h; obtain rfl := Host.Outcome.next.inj h; simp
  | absorb => rw [exec_absorb] at h; obtain rfl := Host.Outcome.next.inj h; simp
  | permute => rw [exec_permute] at h; obtain rfl := Host.Outcome.next.inj h; simp
  | absp => rw [exec_absp] at h; obtain rfl := Host.Outcome.next.inj h; simp
  | pad r =>
    by_cases hr : r.toNat ≤ 135
    · rw [exec_pad r s hr] at h; obtain rfl := Host.Outcome.next.inj h; simp
    · rw [exec_pad_refused r s (by omega)] at h; cases h
  | squeeze => rw [exec_squeeze] at h; obtain rfl := Host.Outcome.next.inj h; simp

/-- A host turn leaves DVALID, but for an accepted write to STATE (R40). -/
theorem hostTurn_dvalid (s : State) : (hostTurn s).dvalid = s.dvalid ∨
    (s.pend = none ∧ ∃ o w v ops, s.host = .write (Config.coreBase + o) w v :: ops ∧ o % w.bytes = 0 ∧ o + w.bytes ≤ 0x0C8) := by
  obtain ⟨-, -, ⟨-, -, hd, -⟩ | ⟨hp, o, w, v, ops, hh, ha, ⟨ho, -⟩ | ⟨-, -, -, hd, -⟩ | ⟨-, -, -, -, hd⟩⟩⟩ := hostTurn_frame s
  · exact .inl hd
  · exact .inr ⟨hp, o, w, v, ops, hh, ha, ho⟩
  · exact .inl hd
  · exact .inl hd

/-- An accepted write to STATE clears DVALID (R40, R79). -/
theorem step_dvalid_of_acceptedWrite {s t : State} (h : step s = .next t) (hw : s.AcceptedWrite 0x000 0x0C7) :
    t.dvalid = false := by
  obtain ⟨hc, hp, o, w, v, ops, hh, ha, -, ho⟩ := hw
  have hin : o < 0x400 := by omega
  rw [step_host hc, hostTurn_write (s := s.setSched s.sched.tail) hh hin, winWrite_state v (by simpa using hp) ha ho] at h
  obtain rfl := Host.Outcome.next.inj h
  rfl

/-- Settles O53: each completion by `exec_dvalid`, each host step by `hostTurn_dvalid`. -/
theorem dvalidRule : Obligations.DvalidRule := by
  intro s t h
  have completion {i : Instr} (hc : s.Completes i) := exec_dvalid ((step_of_completes hc).symm.trans h)
  have cleared {i : Instr} (hc : s.Completes i) := (completion hc).2.1
  refine ⟨fun hc => (completion hc).1 rfl, ?_, ?_, ?_⟩
  · rintro (hc | hc | hc | hc | hw | hr)
    · exact cleared hc (.inl rfl)
    · exact cleared hc (.inr (.inl rfl))
    · exact cleared hc (.inr (.inr (.inl rfl)))
    · exact cleared hc (.inr (.inr (.inr rfl)))
    · exact step_dvalid_of_acceptedWrite h hw
    · rw [step_reset hr] at h
      cases h
      rfl
  · intro hsq hin hab hpe hap hw hr
    rcases step_cases h with ⟨hc, rfl⟩ | ⟨-, -, rfl⟩ | ⟨i, hc, hp, -⟩ | ⟨hc, -⟩
    · rcases hostTurn_dvalid (s.setSched s.sched.tail) with hd | ⟨hp, o, w, v, ops, hh, ha, ho⟩
      · exact hd
      · exact absurd ⟨hc, hp, o, w, v, ops, hh, ha, by omega, ho⟩ hw
    · rfl
    · have hi : s.Completes i := ⟨hc, hp⟩
      obtain ⟨-, -, kept⟩ := completion hi
      exact kept (fun e => hsq (e ▸ hi)) (fun e => hin (e ▸ hi)) (fun e => hab (e ▸ hi)) (fun e => hpe (e ▸ hi))
        (fun e => hap (e ▸ hi))
    · exact absurd hc hr
  · intro hp hc
    rw [step_host hc] at h
    cases h
    rcases hostTurn_dvalid (s.setSched s.sched.tail) with hd | ⟨hn, -⟩
    · exact hd
    · exact absurd hn hp

/-! ## BUSY (R39) -/

/-- Bit 0 of STATUS is BUSY (R38). -/
theorem statusWord_getLsbD_zero (s : State) : (statusWord s).getLsbD 0 = s.busy := by
  simp [statusWord]

/-- OP 0..6 selects a command (R112). -/
theorem selectCommand_of_le_six {op : BitVec 8} (h : op.toNat ≤ 6) (arg : BitVec 8) : ∃ i, selectCommand op arg = some i := by
  interval_cases ho : op.toNat <;> simp [selectCommand, ho]

/-- On an idle core the table of R115 finds no error exactly in the words that decode. -/
theorem commandError_eq_none_iff {s : State} (hp : s.pend = none) (c : Word) :
    commandError s c = none ↔ ∃ i, decode c = .ok i := by
  rw [decode_eq, commandError, if_neg (by simp [hp])]
  by_cases hop : c.toNat % 256 > 6
  · simp [hop]
  · obtain ⟨i, hi⟩ := selectCommand_of_le_six (op := opField c) (by rw [opField_toNat]; omega) (argField c)
    rw [if_neg hop, if_neg hop, hi]
    split_ifs <;> simp

/-- An idle core accepts exactly the words without an error (R115). -/
theorem issueCommand_pend_ne_none_iff {s : State} (hp : s.pend = none) (c : Word) :
    (issueCommand c s).pend ≠ none ↔ commandError s c = none := by
  rw [commandError_eq_none_iff hp]
  rcases issueCommand_cases c s with ⟨hb, -⟩ | ⟨-, e, hd, he⟩ | ⟨-, i, hd, he⟩
  · exact absurd hp hb
  · simp [he, hd, hp]
  · simp [he, hd]

/-- On an idle core a host turn leaves a pending command exactly by an acceptable 4-byte write to CMD (R39, R115). -/
theorem hostTurn_pend_ne_none_iff {s : State} (hp : s.pend = none) :
    (hostTurn s).pend ≠ none ↔ ∃ v ops,
      s.host = .write (Config.coreBase + 0x300) .w4 v :: ops ∧ commandError s (v.extractLsb' 0 32) = none := by
  have written {v : BitVec 64} {ops : List HostOp} (hh : s.host = .write (Config.coreBase + 0x300) .w4 v :: ops) :
      (hostTurn s).pend ≠ none ↔ commandError s (v.extractLsb' 0 32) = none := by
    rw [hostTurn_write hh (by decide), winWrite_cmd]
    exact issueCommand_pend_ne_none_iff (s := s.setHost ops) hp _
  constructor
  · intro ht
    obtain ⟨-, -, ⟨-, -, -, he⟩ | ⟨-, o, w, v, ops, hh, -, ⟨-, -, -, he⟩ | ⟨-, -, -, -, he⟩ | ⟨rfl, rfl, -⟩⟩⟩ := hostTurn_frame s
    · exact absurd (he.trans hp) ht
    · exact absurd he ht
    · exact absurd he ht
    · exact ⟨v, ops, hh, (written hh).mp ht⟩
  · rintro ⟨v, ops, hh, hc⟩
    exact (written hh).mpr hc

/-- While a command is pending a host turn leaves it there (R39). -/
theorem hostTurn_pend_of_busy {s : State} (hp : s.pend ≠ none) : (hostTurn s).pend = s.pend := by
  obtain ⟨-, -, ⟨-, -, -, he⟩ | ⟨hn, -⟩⟩ := hostTurn_frame s
  · exact he
  · exact absurd hn hp

/-- From an idle core a step leaves a pending command exactly by the host's acceptable write to CMD (R39). -/
theorem step_pend_ne_none_iff {s t : State} (h : step s = .next t) (hp : s.pend = none) :
    t.pend ≠ none ↔ currentTurn s = .host ∧ ∃ v ops,
      s.host = .write (Config.coreBase + 0x300) .w4 v :: ops ∧ commandError s (v.extractLsb' 0 32) = none := by
  rcases step_cases h with ⟨hc, rfl⟩ | ⟨hc, -, rfl⟩ | ⟨i, -, hi, -⟩ | ⟨hc, rfl⟩
  · rw [hostTurn_pend_ne_none_iff (s := s.setSched s.sched.tail) hp]
    exact ⟨fun hv => ⟨hc, hv⟩, fun hv => hv.2⟩
  · simp [hc, hp]
  · exact absurd hp (by simp [hi])
  · simp [hc, resetTurn]

/-- Settles O54: BUSY rises by `step_pend_ne_none_iff`, and a completion is the only way of an agent to make it fall. -/
theorem busyRule : Obligations.BusyRule := by
  intro s t h
  refine ⟨?_, step_pend_ne_none_iff h, ?_, ?_⟩
  · rw [winRead_status, statusWord_getLsbD_zero, State.busy_iff]
  · intro i hc
    have he : exec i (s.setSched s.sched.tail) = .next t := (step_of_completes hc).symm.trans h
    exact ⟨(exec_next_frame he).2.1, he⟩
  · intro hp ht
    rcases step_cases h with ⟨-, rfl⟩ | ⟨hc, -⟩ | ⟨i, hc, -⟩ | ⟨hc, -⟩
    · exact absurd ((hostTurn_pend_of_busy (s := s.setSched s.sched.tail) hp).symm.trans ht) hp
    · exact .inl hc
    · exact .inl hc
    · exact .inr hc

/-! ## ERR and ERRCODE (R42) -/

/-- While ERR is 1 a write leaves ERR and ERRCODE, but for the write to STATUS that clears them (R41, R277). -/
theorem winWrite_errors_of_err {s : State} (he : s.err = true) (o : Nat) (w : Width) (v : BitVec 64) :
    ((winWrite o w v s).err = true ∧ (winWrite o w v s).errCode = s.errCode) ∨
    (o = 0x308 ∧ w = .w4 ∧ v.getLsbD 2 = true ∧ winWrite o w v s = s.clearErr) := by
  rcases winWrite_cases o w v s with e | ⟨-, e⟩ | ⟨-, -, -, e⟩ | ⟨-, -, -, -, e⟩ | ⟨-, -, e⟩ | ⟨ho, hw, e⟩ <;> rw [e]
  · simp [he]
  · simp [he]
  · simp [he]
  · simp [he]
  · rcases issueCommand_cases (v.extractLsb' 0 32) s with ⟨-, e⟩ | ⟨-, _, -, e⟩ | ⟨-, _, -, e⟩ <;> rw [e] <;> simp [he]
  · unfold writeStatus
    split
    · rename_i hv
      exact .inr ⟨ho, hw, hv, rfl⟩
    · exact .inl ⟨he, rfl⟩

/-- While ERR is 1 a read leaves ERR and ERRCODE (R277). -/
theorem winRead_errors_of_err {s : State} (he : s.err = true) (o : Nat) (w : Width) :
    (winRead o w s).2.err = true ∧ (winRead o w s).2.errCode = s.errCode := by
  rcases winRead_cases o w s with e | ⟨-, e⟩ | e <;> rw [e] <;> simp [he]

/-- While ERR is 1 a host turn leaves ERR and ERRCODE, but for the write to STATUS that clears them (R41, R277). -/
theorem hostTurn_errors_of_err {s : State} (he : s.err = true) :
    ((hostTurn s).err = true ∧ (hostTurn s).errCode = s.errCode) ∨
    ((hostTurn s).err = false ∧ (hostTurn s).errCode = none ∧ ∃ v ops,
      s.host = .write (Config.coreBase + 0x308) .w4 v :: ops ∧ v.getLsbD 2 = true) := by
  rcases hostTurn_cases s with ⟨-, e⟩ | ⟨a, w, ops, -, ⟨-, e⟩ | ⟨o, -, -, e⟩⟩ | ⟨a, w, v, ops, hh, ⟨-, e⟩ | ⟨o, ha, -, e⟩⟩ |
    ⟨ops, -, -, e⟩ | ⟨ops, -, -, e⟩ <;> rw [e]
  · exact .inl ⟨he, rfl⟩
  · exact .inl ⟨he, rfl⟩
  · exact .inl (winRead_errors_of_err (s := s.setHost ops) he o w)
  · exact .inl ⟨he, rfl⟩
  · rcases winWrite_errors_of_err (s := s.setHost ops) he o w v with hk | ⟨rfl, rfl, hv, hc⟩
    · exact .inl hk
    · rw [hc]
      exact .inr ⟨rfl, rfl, v, ops, by rw [hh, ha], hv⟩
  · exact .inl ⟨he, rfl⟩
  · exact .inl ⟨he, rfl⟩

/-- A consistent state without an error shows code 0 (R42). -/
theorem errCodeBits_eq_zero_of_consistent {s : State} (hs : s.Consistent) (he : s.err = false) : errCodeBits s.errCode = 0 := by
  have hn : s.errCode = none := by simpa [he] using hs.errCode_iff
  rw [hn, errCodeBits]

/-- Settles O55: while ERR is 1 the host's steps obey `hostTurn_errors_of_err`, and no completion touches the error (R273). -/
theorem errCodeRule : Obligations.ErrCodeRule := by
  refine ⟨⟨rfl, rfl, rfl, rfl, rfl⟩, fun s => errCodeBits_eq_zero_of_consistent, ?_, ?_⟩
  · intro s e he
    simp [he]
  · intro s t h he
    rcases step_cases h with ⟨hc, rfl⟩ | ⟨-, -, rfl⟩ | ⟨i, -, -, hx⟩ | ⟨hc, rfl⟩
    · rcases hostTurn_errors_of_err (s := s.setSched s.sched.tail) he with hk | ⟨h1, h2, hv⟩
      · exact .inl hk
      · exact .inr ⟨h1, h2, .inr ⟨hc, hv⟩⟩
    · exact .inl ⟨he, rfl⟩
    · obtain ⟨-, -, h1, h2, -⟩ := exec_next_frame hx
      exact .inl ⟨h1.trans he, h2⟩
    · exact .inr ⟨rfl, rfl, .inl hc⟩

/-! ## Reset (R50) -/

theorem blockByte_reset (j : Nat) : blockByte State.reset.buf j = 0 := by
  simp [blockByte, State.reset]

theorem digestByte_reset (j : Nat) : digestByte State.reset.dig j = 0 := by
  simp [digestByte, State.reset]

/-- Settles O12: each row of R50's table. -/
theorem resetLeavesEveryBitZero : Obligations.ResetLeavesEveryBitZero :=
  ⟨laneAt_zeroLanes, blockByte_reset, digestByte_reset, rfl, rfl, rfl, rfl, rfl, rfl, rfl⟩

end Sys2Proof.Machine

/-! PROOFS. Host accesses to the register window (spec/20_memory.md): reserved offsets (R81). -/

namespace Sys2Proof.Machine

/-- Recording an error, in the words of the statements (R272). -/
theorem raiseErr_eq_recorded (s : State) (e : IfaceError) : s.raiseErr e = s.recorded e :=
  s.raiseErr_eq e

/-- A region's own offsets are all listed in the register map, so an access at a reserved offset is in none of them (R49, R78, R81). -/
theorem region_eq_unmapped_of_reservedOffset {o : Nat} (h : reservedOffset o) (w : Width) : region o w.bytes = .unmapped := by
  obtain ⟨hdata, hdigest, hcontrol⟩ := h
  obtain ⟨hS, hB, hD, hC, hT, hN⟩ := region_spec o w.bytes
  have hpos := w.bytes_cases
  cases hr : region o w.bytes with
  | state => exact absurd (.inl (by have := hS hr; omega)) hdata
  | block => exact absurd (.inr (by have := hB hr; omega)) hdata
  | digest => exact absurd (by have := hD hr; omega) hdigest
  | cmd => exact absurd (.inl (by have := hC hr; omega)) hcontrol
  | status => exact absurd (.inr (.inl (by have := hT hr; omega))) hcontrol
  | count => exact absurd (.inr (.inr (by have := hN hr; omega))) hcontrol
  | unmapped => rfl

/-- A read outside every region fails, aligned or not (R81). -/
theorem winRead_of_unmapped {o : Nat} {w : Width} (hr : region o w.bytes = .unmapped) (s : State) :
    winRead o w s = (0, s.recorded .badAccess) := by
  rw [winRead, if_pos hr, ite_self, failRead, raiseErr_eq_recorded]

/-- A write outside every region fails, aligned or not (R81). -/
theorem winWrite_of_unmapped {o : Nat} {w : Width} (hr : region o w.bytes = .unmapped) (v : BitVec 64) (s : State) :
    winWrite o w v s = s.recorded .badAccess := by
  rw [winWrite, if_pos hr, ite_self, raiseErr_eq_recorded]

/-- Settles O43: at a reserved offset the access is in no region, whatever its width. -/
theorem reservedOffsetIsBadAccess : Obligations.ReservedOffsetIsBadAccess := by
  intro s o w v _ ho
  have hr := region_eq_unmapped_of_reservedOffset ho w
  exact ⟨winRead_of_unmapped hr s, winWrite_of_unmapped hr v s⟩

end Sys2Proof.Machine

/-! PROOFS. Command words (spec/30_encoding.md): what a decoded word holds (R110, R113) and the checks at acceptance (R115). -/

namespace Sys2Proof

/-- R113's check on the fields of a command: only PAD's argument is bounded. -/
theorem wellFormed_iff (i : Instr) : i.WellFormed ↔ (i.opcode = 0x05 → i.arg.toNat ≤ 135) := by
  cases i with
  | pad r => simp [wellFormed_pad_iff, Instr.opcode, Instr.arg]
  | _ => simp [Instr.WellFormed, Instr.wellFormed, Instr.opcode]

/-- A selected command has the OP that selects it; only PAD takes its argument (R112, R113). -/
theorem opcode_arg_of_selectCommand {op arg : BitVec 8} {i : Instr} (h : selectCommand op arg = some i) :
    i.opcode = op ∧ i.arg = if op = 0x05 then arg else 0 := by
  have opEq {n : Nat} (hn : op.toNat = n) : op = BitVec.ofNat 8 n := by rw [← hn, BitVec.ofNat_toNat, BitVec.setWidth_eq]
  unfold selectCommand at h
  split at h <;> cases h
  all_goals
    rename_i ho
    rw [opEq ho]
    exact ⟨rfl, rfl⟩

/-- A word that decodes gives a well-formed command with the word's OP and ARG (R110, R115). -/
theorem fields_of_decode_eq_ok {c : Word} {i : Instr} (h : decode c = .ok i) :
    i.WellFormed ∧ i.opcode = opField c ∧ i.arg = argField c := by
  unfold decode at h
  split at h
  · cases h
  · rename_i j hj
    obtain ⟨hop, harg⟩ := opcode_arg_of_selectCommand hj
    split_ifs at h with hrsv hzero hpad
    cases h
    have hfield : i.arg = argField c := by
      rw [harg]
      split_ifs with h5
      · rfl
      · exact (not_not.mp fun hne => hzero ⟨h5, hne⟩).symm
    refine ⟨(wellFormed_iff i).mpr fun h5 => ?_, hop, hfield⟩
    rw [hfield]
    exact not_lt.mp fun hgt => hpad ⟨hop ▸ h5, hgt⟩

end Sys2Proof

namespace Sys2Proof.Machine

/-- While a command is pending every word is a BUSY_VIOLATION, before any other check (R115). -/
theorem commandError_of_busy {s : State} (hp : s.pend ≠ none) (c : Word) : commandError s c = some .busyViolation :=
  if_pos hp

/-- On an idle core the table of R115 names the error with which the decoder rejects the word. -/
theorem commandError_of_decode_eq_error {s : State} (hp : s.pend = none) {c : Word} {e : IfaceError}
    (hd : decode c = .error e) : commandError s c = some e := by
  rw [decode_eq] at hd
  rw [commandError, if_neg (not_not.mpr hp)]
  by_cases hop : c.toNat % 256 > 6
  · rw [if_pos hop] at hd ⊢
    cases hd
    rfl
  · obtain ⟨i, hi⟩ := selectCommand_of_le_six (op := opField c) (by rw [opField_toNat]; omega) (argField c)
    rw [if_neg hop, hi] at hd
    rw [if_neg hop]
    split_ifs at hd ⊢ <;> cases hd <;> rfl

/-- A rejected word records the error the table of R115 names, and does nothing else. -/
theorem issueCommand_of_commandError {s : State} {c : Word} {e : IfaceError} (he : commandError s c = some e) :
    issueCommand c s = s.recorded e := by
  rcases issueCommand_cases c s with ⟨hb, hr⟩ | ⟨hp, e', hd, hr⟩ | ⟨hp, i, hd, -⟩
  · obtain rfl := Option.some.inj ((commandError_of_busy hb c).symm.trans he)
    rw [hr, raiseErr_eq_recorded]
  · obtain rfl := Option.some.inj ((commandError_of_decode_eq_error hp hd).symm.trans he)
    rw [hr, raiseErr_eq_recorded]
  · have hn := (commandError_eq_none_iff hp c).mpr ⟨i, hd⟩
    exact absurd (hn.symm.trans he) (by simp)

/-- A word without an error is decoded and waits in PEND, and nothing else changes (R115). -/
theorem issueCommand_of_no_commandError {s : State} {c : Word} (hn : commandError s c = none) :
    ∃ i, decode c = .ok i ∧ issueCommand c s = s.setPend i := by
  rcases issueCommand_cases c s with ⟨hb, -⟩ | ⟨hp, e, hd, -⟩ | ⟨-, hok⟩
  · exact absurd ((commandError_of_busy hb c).symm.trans hn) (by simp)
  · exact absurd ((commandError_of_decode_eq_error hp hd).symm.trans hn) (by simp)
  · exact hok

/-- Settles O5: a 4-byte CMD write is `issueCommand` of its word, which rejects by `issueCommand_of_commandError` and accepts by
`issueCommand_of_no_commandError`; the accepted command's fields are the word's. -/
theorem issueCommandChecksInOrder : Obligations.IssueCommandChecksInOrder := by
  intro c s
  refine ⟨fun v hv => by rw [winWrite_cmd, hv], fun e => issueCommand_of_commandError, fun hn => ?_⟩
  obtain ⟨i, hd, hi⟩ := issueCommand_of_no_commandError hn
  obtain ⟨hwf, hop, harg⟩ := fields_of_decode_eq_ok hd
  refine ⟨i, hwf, ?_, ?_, hi, by rw [hi]; rfl⟩
  · rw [hop, opField_toNat]
  · rw [harg, argField_toNat]

end Sys2Proof.Machine

/-! PROOFS. The step mappings of a Keccak round (spec/42_permuter.md section 2): theta (R182), chi (R184) and iota (R185), each by the
lane it gives at any coordinates, indices modulo 5 (R12). -/

namespace Sys2Proof.Machine

/-! ## Theta (R182) -/

@[simp] theorem rowAt_mod (C : Vector Lane 5) (x : Nat) : rowAt C (x % 5) = rowAt C x := by
  simp [rowAt]

/-- An offset from a reduced row index is an offset from the index itself (R12). -/
@[simp] theorem rowAt_mod_add (C : Vector Lane 5) (x k : Nat) : rowAt C (x % 5 + k) = rowAt C (x + k) := by
  simp [rowAt]

/-- Element `x` of the parities is the parity of column `x` of the input. -/
theorem rowAt_columnParity (A : Lanes) (x : Nat) :
    rowAt (columnParity A) x = laneAt A x 0 ^^^ laneAt A x 1 ^^^ laneAt A x 2 ^^^ laneAt A x 3 ^^^ laneAt A x 4 := by
  simp [rowAt, columnParity]

/-- Element `x` of the offsets mixes the parity of the column before with the rotated parity of the column after. -/
theorem rowAt_thetaOffsets (C : Vector Lane 5) (x : Nat) :
    rowAt (thetaOffsets C) x = rowAt C (x + 4) ^^^ rotl64 (rowAt C (x + 1)) 1 := by
  rw [← rowAt_mod_add C x 4, ← rowAt_mod_add C x 1]
  simp only [rowAt, thetaOffsets, Vector.getElem_ofFn]

theorem laneAt_theta (A : Lanes) (x y : Nat) :
    laneAt (theta A) x y = laneAt A x y ^^^ rowAt (thetaOffsets (columnParity A)) x := by
  simp only [theta, laneAt_buildLanes, laneAt_mod, rowAt_mod]

/-- Settles O25: theta adds to each lane its column's offset, and the offset is made of two parities of the input. -/
theorem thetaMixesColumnParities : Obligations.ThetaMixesColumnParities := by
  intro A x y _ _ C
  have parity (k : Nat) : rowAt (columnParity A) k = C (k % 5) := by
    rw [← rowAt_mod, rowAt_columnParity]
  rw [laneAt_theta, rowAt_thetaOffsets, parity, parity]

/-! ## Chi (R184) -/

/-- An offset from a reduced lane coordinate is an offset from the coordinate itself (R12). -/
@[simp] theorem laneAt_mod_add_left (A : Lanes) (x k y : Nat) : laneAt A (x % 5 + k) y = laneAt A (x + k) y := by
  simp [laneAt]

theorem laneAt_chi (B : Lanes) (x y : Nat) :
    laneAt (chi B) x y = laneAt B x y ^^^ (~~~ laneAt B (x + 1) y &&& laneAt B (x + 2) y) := by
  simp only [chi, laneAt_buildLanes, laneAt_mod_left, laneAt_mod_right, laneAt_mod_add_left]

/-- Settles O27: a lane of chi is `laneAt_chi`'s, the two neighbours' indices modulo 5 (R12). -/
theorem chiCombinesRows : Obligations.ChiCombinesRows := by
  intro B x y _ _
  rw [laneAt_chi, laneAt_mod_left, laneAt_mod_left]

/-! ## Iota (R185) -/

theorem laneAt_iota (A : Lanes) (i x y : Nat) :
    laneAt (iota A i) x y = if 0 = x % 5 ∧ 0 = y % 5 then laneAt A 0 0 ^^^ roundConstant i else laneAt A x y := by
  rw [iota, laneAt_setLaneAt]

/-- Settles O28: iota sets the one lane whose coordinates are 0 modulo 5, and below 5 that is lane (0,0). -/
theorem iotaChangesLaneZeroOnly : Obligations.IotaChangesLaneZeroOnly := by
  intro A i x y hx hy
  have origin : (0 = x % 5 ∧ 0 = y % 5) ↔ (x = 0 ∧ y = 0) := by omega
  simp only [laneAt_iota, origin]

end Sys2Proof.Machine

/-! PROOFS. Interface errors (spec/60_exceptions.md): how ERR and ERRCODE are cleared (R276). -/

namespace Sys2Proof.Machine

/-- The write to STATUS, in the words of the statements: bit 2 clears the error, and no other bit has an effect (R41, R276). -/
theorem writeStatus_eq (v : BitVec 64) (s : State) :
    writeStatus v s = if v.getLsbD 2 then { s with err := false, errCode := none } else s := by
  rw [writeStatus, State.clearErr]

theorem resetTurn_errors (s : State) : (resetTurn s).err = false ∧ (resetTurn s).errCode = none := ⟨rfl, rfl⟩

/-- Settles O45: STATUS accepts the write whether or not a command is pending, a reset step ends in `resetTurn`'s state, and INIT, as
every completion, keeps the error (R273). -/
theorem statusWriteClearsErrors : Obligations.StatusWriteClearsErrors := by
  refine ⟨?_, ?_, ?_⟩
  · intro s v
    rw [winWrite_status, writeStatus_eq]
  · intro s t hc h
    obtain rfl := Host.Outcome.next.inj ((step_reset hc).symm.trans h)
    exact resetTurn_errors _
  · intro s t h
    obtain ⟨-, -, herr, hcode, -⟩ := exec_next_frame h
    exact ⟨herr, hcode⟩

end Sys2Proof.Machine

/-! PROOFS. Reset as an event (spec/70_reset_and_hazards.md): it can come in any state and leaves nothing of a pending command (R300). -/

namespace Sys2Proof.Machine

/-- A reset sets the core's three memories to their reset values, whatever they held (R50, R300). -/
theorem resetTurn_memories (s : State) :
    (resetTurn s).lanes = zeroLanes ∧ (resetTurn s).buf = State.reset.buf ∧ (resetTurn s).dig = State.reset.dig := ⟨rfl, rfl, rfl⟩

/-- A reset clears the flags, the error, the counter and the pending command, whatever they were (R50, R300). -/
theorem resetTurn_status (s : State) : let t := resetTurn s
    t.busy = false ∧ t.dvalid = false ∧ t.err = false ∧ t.errCode = none ∧ t.blockCount = 0 ∧ t.pend = none :=
  ⟨rfl, rfl, rfl, rfl, rfl, rfl⟩

/-- Settles O13: the step ends in `resetTurn`'s state, whose memories and status are those of the reset state. -/
theorem resetTurnDiscardsEverything : Obligations.ResetTurnDiscardsEverything := by
  intro s hc
  obtain ⟨hlanes, hbuf, hdig⟩ := resetTurn_memories (s.setSched s.sched.tail)
  refine ⟨_, step_reset hc, ?lanes, ?buf, ?dig, resetTurn_status _⟩
  case lanes => rw [hlanes]; exact laneAt_zeroLanes
  case buf => rw [hbuf]; exact blockByte_reset
  case dig => rw [hdig]; exact digestByte_reset

end Sys2Proof.Machine

/-! PROOFS. Command words, continued (spec/30_encoding.md): decoding and encoding are inverse (R110 to R117), and the assembler (R117). -/

namespace Sys2Proof

/-! ## Decoding an encoded command -/

/-- OP and ARG of a command select that command again (R112, R113). -/
theorem selectCommand_opcode_arg (i : Instr) : selectCommand i.opcode i.arg = some i := by
  cases i <;> rfl

/-- Only PAD has an argument (R113, R114). -/
theorem arg_eq_zero_of_opcode_ne {i : Instr} (h : i.opcode ≠ 0x05) : i.arg = 0 := by
  cases i with
  | pad r => exact absurd rfl h
  | _ => rfl

/-- The word of a well-formed command passes every check of R115. -/
theorem decode_encode {i : Instr} (h : i.WellFormed) : decode (encode i) = .ok i := by
  have noArgument : ¬ (i.opcode ≠ 0x05 ∧ i.arg ≠ 0) := fun ⟨hop, harg⟩ => harg (arg_eq_zero_of_opcode_ne hop)
  have inRange : ¬ (i.opcode = 0x05 ∧ i.arg.toNat > 135) := fun ⟨hop, hgt⟩ => absurd ((wellFormed_iff i).mp h hop) (by omega)
  simp only [decode, opField_encode, argField_encode, rsvField_encode, selectCommand_opcode_arg, ne_eq, not_true_eq_false,
    if_false, if_neg noArgument, if_neg inRange]

/-- Settles O1: encoding keeps the fields, and the checks of R115 pass on those of a well-formed command. -/
theorem encodedCommandDecodes : Obligations.EncodedCommandDecodes := fun _ h => decode_encode h

/-! ## The words that decode -/

/-- A word that decodes has RSV = 0 (R114, R115). -/
theorem rsvField_eq_zero_of_decode_eq_ok {c : Word} {i : Instr} (h : decode c = .ok i) : rsvField c = 0 := by
  unfold decode at h
  split at h
  · cases h
  · by_contra hne
    rw [if_pos hne] at h
    cases h

/-- A word that decodes is its command's word: OP, ARG and RSV make up all 32 bits (R110). -/
theorem encode_of_decode_eq_ok {c : Word} {i : Instr} (h : decode c = .ok i) : encode i = c := by
  obtain ⟨-, hop, harg⟩ := fields_of_decode_eq_ok h
  have hrsv : c.toNat / 65536 = 0 := by rw [← rsvField_toNat, rsvField_eq_zero_of_decode_eq_ok h]; rfl
  apply BitVec.eq_of_toNat_eq
  rw [encode_toNat, hop, harg, opField_toNat, argField_toNat]
  omega

/-- A word decodes exactly when it is the word of a well-formed command. -/
theorem decode_eq_ok_iff (c : Word) (i : Instr) : decode c = .ok i ↔ i.WellFormed ∧ encode i = c := by
  constructor
  · exact fun h => ⟨(fields_of_decode_eq_ok h).1, encode_of_decode_eq_ok h⟩
  · rintro ⟨hwf, rfl⟩
    exact decode_encode hwf

theorem toNat_argument {r : Nat} (h : r ≤ 135) : (BitVec.ofNat 8 r).toNat = r := by
  rw [BitVec.toNat_ofNat]
  omega

/-- The words of the well-formed commands, as numbers: the table of spec/30_encoding.md section 4. -/
theorem exists_encode_toNat_eq_iff (n : Nat) :
    (∃ i : Instr, i.WellFormed ∧ (encode i).toNat = n) ↔ n ∈ [0, 1, 2, 3, 4, 6] ∨ ∃ r, r ≤ 135 ∧ n = 5 + 256 * r := by
  constructor
  · rintro ⟨i, hwf, rfl⟩
    cases i with
    | pad r => exact .inr ⟨r.toNat, (wellFormed_pad_iff r).mp hwf, encode_toNat _⟩
    | _ => exact .inl (by decide)
  · rintro (hn | ⟨r, hr, rfl⟩)
    · fin_cases hn
      exacts [⟨.nop, rfl, rfl⟩, ⟨.init, rfl, rfl⟩, ⟨.absorb, rfl, rfl⟩, ⟨.permute, rfl, rfl⟩, ⟨.absp, rfl, rfl⟩,
        ⟨.squeeze, rfl, rfl⟩]
    · refine ⟨.pad (BitVec.ofNat 8 r), (wellFormed_pad_iff _).mpr (by rwa [toNat_argument hr]), ?_⟩
      rw [encode_toNat, Instr.arg, toNat_argument hr]
      rfl

/-- Settles O2: `decode_eq_ok_iff`, and the values of the encoded commands. -/
theorem legalWordsAreExactlyTheTable : Obligations.LegalWordsAreExactlyTheTable := by
  refine ⟨fun c i h => (decode_eq_ok_iff c i).mp h, fun c => ?_⟩
  rw [← exists_encode_toNat_eq_iff]
  simp only [decode_eq_ok_iff, BitVec.toNat_inj]

/-- Settles O3: each word is evaluated. -/
theorem specWordsDecode : Obligations.SpecWordsDecode := by
  unfold Obligations.SpecWordsDecode
  decide

/-! ## The assembler (R117) -/

/-- PAD's argument is 0..135 (R113). -/
theorem assembleCommand_pad (r : Nat) :
    assembleCommand ['P', 'A', 'D'] (some r) = if r ≤ 135 then some (.pad (BitVec.ofNat 8 r)) else none := rfl

/-- No other mnemonic takes an argument. -/
theorem assembleCommand_some_eq_none {m : List Char} (r : Nat) (h : m ≠ ['P', 'A', 'D']) : assembleCommand m (some r) = none := by
  unfold assembleCommand
  split
  case h_6 => exact absurd rfl h
  case h_8 => rfl
  all_goals contradiction

/-- Settles O4: the nine lines are evaluated, and an argument goes through `assembleCommand_pad` or nowhere. -/
theorem assemblerSpellsCommandWords : Obligations.AssemblerSpellsCommandWords := by
  refine ⟨by decide, by decide, by decide, by decide, by decide, by decide, by decide, by decide, by decide, ?_, ?_, ?_⟩
  · intro r hr
    refine ⟨_, (assembleCommand_pad r).trans (if_pos hr), ?_⟩
    rw [encode_toNat, Instr.arg, toNat_argument hr]
    rfl
  · exact fun r hr => (assembleCommand_pad r).trans (if_neg (by omega))
  · exact fun m r hm => assembleCommand_some_eq_none r hm

/-! ## Command words as bytes (R111) -/

/-- The four bytes a CMD write carries decode as the word they make up (R72, R111). -/
theorem decodeBytes_wordBytes (c : Word) : decodeBytes (wordBytes c) = decode c := by
  have whole : (c.extractLsb' 0 8).setWidth 32 ||| (c.extractLsb' 8 8).setWidth 32 <<< 8 |||
      (c.extractLsb' 16 8).setWidth 32 <<< 16 ||| (c.extractLsb' 24 8).setWidth 32 <<< 24 = c := by
    apply BitVec.eq_of_getLsbD_eq
    intro j hj
    interval_cases j <;> simp
  exact congrArg decode whole

/-- A well-formed command's word, taken as a number, is that command (log 12). -/
theorem decodeTableWord_encode {i : Instr} (h : i.WellFormed) : decodeTableWord 32 (encode i).toNat = some i := by
  have hlt : (encode i).toNat % 2 ^ 32 = (encode i).toNat := Nat.mod_eq_of_lt (encode i).isLt
  rw [decodeTableWord, hlt, if_pos (encode i).isLt, BitVec.ofNat_toNat, BitVec.setWidth_eq, decodeBytes_wordBytes, decode_encode h]
  rfl

end Sys2Proof

/-! PROOFS. What each command does (R48), continued: the completions as one function of the state, from which every claim about them
follows, and each command's own statement (spec/40_padder.md to spec/44_driver.md). -/

namespace Sys2Proof.Machine

/-! ## Completions as a function -/

/-- The state in which a well-formed command completes (R144, R162, R191, R221, R240 to R242). -/
def completed (i : Instr) (s : State) : State :=
  match i with
  | .nop => { s with pend := none }
  | .init => { s with lanes := zeroLanes, buf := Vector.replicate 136 0, dig := Vector.replicate 32 0, blockCount := 0,
                      dvalid := false, pend := none }
  | .absorb => { s with lanes := absorb s.lanes s.buf, blockCount := s.blockCount + 1, dvalid := false, pend := none }
  | .permute => { s with lanes := keccakF s.lanes, dvalid := false, pend := none }
  | .absp => { s with lanes := keccakF (absorb s.lanes s.buf), blockCount := s.blockCount + 1, dvalid := false, pend := none }
  | .pad r => { s with buf := padBlock r.toNat s.buf, pend := none }
  | .squeeze => { s with dig := squeeze s.lanes, dvalid := true, pend := none }

theorem exec_eq_completed {i : Instr} (h : i.WellFormed) (s : State) : exec i s = .next (completed i s) := by
  cases i with
  | nop => exact exec_nop s
  | init => exact exec_init s
  | absorb => exact exec_absorb s
  | permute => exact exec_permute s
  | absp => exact exec_absp s
  | pad r => exact exec_pad r s ((wellFormed_pad_iff r).mp h)
  | squeeze => exact exec_squeeze s

/-- A command that completes is well-formed, and completes as `completed` says. -/
theorem exec_eq_next {i : Instr} {s t : State} (h : exec i s = .next t) : i.WellFormed ∧ t = completed i s := by
  have hwf := (exec_next_frame h).1
  exact ⟨hwf, Host.Outcome.next.inj (h.symm.trans (exec_eq_completed hwf s))⟩

/-! ## The driver commands (R240 to R242) -/

/-- Settles O14: `exec_nop`. -/
theorem nopCompletes : Obligations.NopCompletes := exec_nop

/-- Settles O15: every memory INIT writes is zero throughout. -/
theorem initCompletes : Obligations.InitCompletes := by
  intro s
  exact ⟨_, exec_init s, laneAt_zeroLanes, blockByte_reset, digestByte_reset, rfl, rfl, rfl⟩

/-- Settles O23: what INIT leaves is what the two states agree on. -/
theorem initForgetsEarlierHash : Obligations.InitForgetsEarlierHash := by
  intro s t herr hcode hhost hsched hresp hdraws
  rw [exec_init, exec_init, herr, hcode, hhost, hsched, hresp, hdraws]

/-- Settles O22: the state that ABSORB answers holds the absorbed lanes and the raised counter, which PERMUTE permutes and keeps. -/
theorem abspIsAbsorbThenPermute : Obligations.AbspIsAbsorbThenPermute := by
  intro s
  refine ⟨_, exec_absorb s, ?_⟩
  rw [exec_absp, exec_permute]

/-! ## ABSORB, PERMUTE and ABSP (R162, R191, R242) -/

/-- BLOCK_COUNT counts modulo 2^32 (R43). -/
theorem toNat_add_one (n : BitVec 32) : (n + 1).toNat = (n.toNat + 1) % 2 ^ 32 := by
  rw [BitVec.toNat_add]
  rfl

/-- The absorbed state, lane by lane, in the words of the statements (R160). -/
theorem laneAt_absorb_rate (A : Lanes) (B : Block) (x y : Nat) (hx : x < 5) (hy : y < 5) :
    laneAt (absorb A B) x y =
      if x + 5 * y ≤ 16 then laneAt A x y ^^^ laneOfBytes (fun k => blockByte B (8 * (x + 5 * y) + k)) else laneAt A x y := by
  have hrate : x + 5 * y < 17 ↔ x + 5 * y ≤ 16 := by omega
  simp only [laneAt_absorb A B x y hx hy, hrate, blockLane]

/-- Settles O16: the lanes by `laneAt_absorb_rate`, the counter by `toNat_add_one`. -/
theorem absorbCompletes : Obligations.AbsorbCompletes := by
  intro s
  exact ⟨_, exec_absorb s, laneAt_absorb_rate s.lanes s.buf, toNat_add_one _, rfl⟩

/-- The state before round `n` (R180). -/
def afterRounds (A : Lanes) (n : Nat) : Lanes := (List.range n).foldl keccakRound A

theorem afterRounds_zero (A : Lanes) : afterRounds A 0 = A := rfl

/-- Round `n` takes the state before it to the state before the next (R180, R181). -/
theorem afterRounds_succ (A : Lanes) (n : Nat) : afterRounds A (n + 1) = iota (chi (rhoPi (theta (afterRounds A n)))) n := by
  rw [afterRounds, List.range_succ, List.foldl_append]
  rfl

theorem keccakF_eq_afterRounds (A : Lanes) : keccakF A = afterRounds A 24 := rfl

/-- Settles O17: the sequence is `afterRounds` of the lanes. -/
theorem permuteCompletes : Obligations.PermuteCompletes := by
  intro s
  refine ⟨afterRounds s.lanes, afterRounds_zero _, fun i _ => afterRounds_succ _ i, ?_⟩
  rw [exec_permute, keccakF_eq_afterRounds]

/-- Settles O18: the sequence is `afterRounds` of the absorbed lanes. -/
theorem abspCompletes : Obligations.AbspCompletes := by
  intro s
  refine ⟨afterRounds (absorb s.lanes s.buf), ?_, fun i _ => afterRounds_succ _ i, _, toNat_add_one s.blockCount, ?_⟩
  · rw [afterRounds_zero]
    exact laneAt_absorb_rate s.lanes s.buf
  · rw [exec_absp, keccakF_eq_afterRounds]

/-! ## PAD (R144) -/

theorem blockByte_zeroFrom (r : Nat) (B : Block) (j : Nat) : blockByte (zeroFrom r B) j = if r ≤ j then 0 else blockByte B j := by
  simp only [zeroFrom, blockByte_ofFn]
  by_cases hj : j < 136
  · simp [hj, blockByte_eq B j hj]
  · simp [hj, blockByte_of_ge B j (by omega)]

/-- The byte of a padded block that is not a message byte: 0x06 behind the message, 0x80 at the end, both in one byte when they
meet (R142). -/
def padByte (r j : Nat) : Byte :=
  if j = r then (if j = 135 then 0x86 else 0x06) else if j = 135 then 0x80 else 0x00

/-- OR-ing the pad bytes into a block that is zero from `r` on leaves the bytes before it and makes the rest `padByte`. -/
theorem blockByte_orPadBytes_of_zero {r : Nat} (hr : r ≤ 135) {B : Block} (hB : ∀ j, r ≤ j → j < 136 → blockByte B j = 0)
    (j : Nat) (hj : j < 136) : blockByte (orPadBytes r B) j = if j < r then blockByte B j else padByte r j := by
  rw [blockByte_orPadBytes r hr B j hj]
  by_cases hlt : j < r
  · have hne : j ≠ r := by omega
    have hne' : j ≠ 135 := by omega
    simp [hlt, hne, hne']
  · rw [hB j (by omega) hj, if_neg hlt, padByte]
    split_ifs <;> rfl

theorem blockByte_padBlock {r : Nat} (hr : r ≤ 135) (B : Block) (j : Nat) (hj : j < 136) :
    blockByte (padBlock r B) j = if j < r then blockByte B j else padByte r j := by
  rw [padBlock, blockByte_orPadBytes_of_zero hr (fun k hk _ => by rw [blockByte_zeroFrom, if_pos hk]) j hj, blockByte_zeroFrom]
  by_cases hlt : j < r
  · rw [if_pos hlt, if_pos hlt, if_neg (by omega)]
  · rw [if_neg hlt, if_neg hlt]

/-- Settles O19: the bytes by `blockByte_padBlock`. -/
theorem padCompletes : Obligations.PadCompletes := fun s r hr => ⟨_, exec_pad r s hr, blockByte_padBlock hr s.buf, rfl⟩

/-- Settles O21: an argument above 135 is refused by `exec_pad_refused`; what acceptance lets through has been decoded. -/
theorem illFormedPadIsRefused : Obligations.IllFormedPadIsRefused := by
  refine ⟨fun s r => exec_pad_refused r s, fun s c i hp hi => ?_⟩
  have hwf : i.WellFormed := by
    rcases issueCommand_cases c s with ⟨hb, -⟩ | ⟨-, e, -, he⟩ | ⟨-, j, hd, he⟩
    · exact absurd hp hb
    · rw [he, State.raiseErr_pend, hp] at hi
      cases hi
    · rw [he] at hi
      obtain rfl := Option.some.inj hi
      exact (fields_of_decode_eq_ok hd).1
  refine ⟨hwf, ?_⟩
  rintro r rfl
  exact (wellFormed_pad_iff r).mp hwf

/-! ## SQUEEZE (R220, R221) -/

/-- Byte `8i + k` of the digest is byte `k` of lane `i` (R220). -/
theorem digestByte_squeeze (A : Lanes) (i k : Nat) (hi : i < 4) (hk : k < 8) :
    digestByte (squeeze A) (8 * i + k) = byteOf (laneAt A i 0) k := by
  have hlt : 8 * i + k < 32 := by omega
  have hlane : (8 * i + k) / 8 = i := by omega
  have hbyte : (8 * i + k) % 8 = k := by omega
  have hrow : i / 5 = 0 := by omega
  rw [squeeze, digestByte_ofFn, dif_pos hlt]
  simp only [hlane, hbyte, hrow, laneAt_mod_left]

/-- Settles O20: the bytes by `digestByte_squeeze`. -/
theorem squeezeCompletes : Obligations.SqueezeCompletes := fun s => ⟨_, exec_squeeze s, digestByte_squeeze s.lanes, rfl⟩

/-- Settles O35: row 0 holds the first four lanes, and a digest is its 32 bytes. -/
theorem squeezeReadsFourLanes : Obligations.SqueezeReadsFourLanes := by
  refine fun A => ⟨fun i k hi hk => ?_, fun B h => digest_ext fun j hj => ?_⟩
  · have hrow : i / 5 = 0 := by omega
    rw [digestByte_squeeze A i k hi hk, hrow, laneAt_mod_left]
  · have hj' : 8 * (j / 8) + j % 8 = j := by omega
    have hA := digestByte_squeeze A (j / 8) (j % 8) (by omega) (by omega)
    have hB := digestByte_squeeze B (j / 8) (j % 8) (by omega) (by omega)
    rw [← hj', hA, hB, h (j / 8) (by omega)]

end Sys2Proof.Machine

/-! PROOFS. Consistency of the whole machine (spec/10_state.md sections 4 and 5): every turn keeps it, and no step of a consistent state
stops (R270, R273). -/

namespace Sys2Proof.Machine

/-! ## What keeps a state consistent -/

theorem reset_consistent : State.reset.Consistent :=
  ⟨rfl, by simp, by simp⟩

/-- Settles O47: nothing is set at reset. -/
theorem resetIsConsistent : Obligations.ResetIsConsistent := reset_consistent

namespace State.Consistent

section
variable {s : State} (h : s.Consistent)
include h

/-- Consistency speaks of the core alone, not of what lies outside it. -/
theorem setHost (ops : List HostOp) : (s.setHost ops).Consistent := ⟨h.errCode_iff, h.pend_wellFormed, h.digest_valid⟩

theorem setSched (ts : List Turn) : (s.setSched ts).Consistent := ⟨h.errCode_iff, h.pend_wellFormed, h.digest_valid⟩

theorem respond (v : BitVec 64) : (s.respond v).Consistent := ⟨h.errCode_iff, h.pend_wellFormed, h.digest_valid⟩

theorem countDraw : s.countDraw.Consistent := ⟨h.errCode_iff, h.pend_wellFormed, h.digest_valid⟩

/-- Recording an error sets ERR and ERRCODE together (R272). -/
theorem raiseErr (e : IfaceError) : (s.raiseErr e).Consistent := by
  refine ⟨?_, by simpa using h.pend_wellFormed, by simpa using h.digest_valid⟩
  rw [raiseErr_errCode, raiseErr_err]
  cases he : s.err with
  | false => rfl
  | true => exact h.errCode_iff.trans he

/-- Clearing an error clears ERR and ERRCODE together (R276). -/
theorem clearErr : s.clearErr.Consistent := ⟨rfl, h.pend_wellFormed, h.digest_valid⟩

/-- New lanes come with DVALID = 0 (R40). -/
theorem setLanes_setDvalid (A : Lanes) : ((s.setLanes A).setDvalid false).Consistent :=
  ⟨h.errCode_iff, h.pend_wellFormed, fun hv => Bool.noConfusion hv⟩

theorem setBuf (B : Block) : (s.setBuf B).Consistent := ⟨h.errCode_iff, h.pend_wellFormed, h.digest_valid⟩

theorem setPend {i : Instr} (hi : i.WellFormed) : (s.setPend i).Consistent :=
  ⟨h.errCode_iff, fun _ hj => Option.some.inj hj ▸ hi, h.digest_valid⟩

/-- Acceptance lets well-formed commands through only (R115). -/
theorem issueCommand (c : Word) : (issueCommand c s).Consistent := by
  rcases issueCommand_cases c s with ⟨-, e⟩ | ⟨-, _, -, e⟩ | ⟨-, i, hd, e⟩ <;> rw [e]
  · exact h.raiseErr _
  · exact h.raiseErr _
  · exact h.setPend (fields_of_decode_eq_ok hd).1

theorem writeStatus (v : BitVec 64) : (writeStatus v s).Consistent := by
  unfold Machine.writeStatus
  split
  · exact h.clearErr
  · exact h

theorem winWrite (o : Nat) (w : Width) (v : BitVec 64) : (winWrite o w v s).Consistent := by
  rcases winWrite_cases o w v s with e | ⟨-, e⟩ | ⟨-, -, -, e⟩ | ⟨-, -, -, -, e⟩ | ⟨-, -, e⟩ | ⟨-, -, e⟩ <;> rw [e]
  · exact h.raiseErr _
  · exact h.raiseErr _
  · exact h.setLanes_setDvalid _
  · exact h.setBuf _
  · exact h.issueCommand _
  · exact h.writeStatus _

theorem winRead (o : Nat) (w : Width) : (winRead o w s).2.Consistent := by
  rcases winRead_cases o w s with e | ⟨-, e⟩ | e <;> rw [e]
  · exact h
  · exact h.countDraw
  · exact h.raiseErr _

theorem hostTurn : (hostTurn s).Consistent := by
  rcases hostTurn_cases s with ⟨-, e⟩ | ⟨_, w, ops, -, ⟨-, e⟩ | ⟨o, -, -, e⟩⟩ | ⟨_, w, v, ops, -, ⟨-, e⟩ | ⟨o, -, -, e⟩⟩ |
    ⟨ops, -, -, e⟩ | ⟨ops, -, -, e⟩ <;> rw [e]
  · exact h
  · exact h.setHost ops
  · exact ((h.setHost ops).winRead o w).respond _
  · exact h.setHost ops
  · exact (h.setHost ops).winWrite o w v
  · exact h.respond _
  · exact (h.setHost ops).respond _

end

/-- A reset leaves a consistent state whatever it finds (R300). -/
theorem resetTurn (s : State) : (resetTurn s).Consistent := by
  obtain ⟨-, hdvalid, herr, hcode, -, hpend⟩ := resetTurn_status s
  exact ⟨by rw [herr, hcode]; rfl, by simp [hpend], by simp [hdvalid]⟩

end State.Consistent

/-- After a completion DVALID = 1 only where SQUEEZE has just set DIG, or where neither DIG nor the state has changed (R40, R221). -/
theorem completed_digest_valid (i : Instr) {s : State} (hs : s.dvalid = true → s.dig = squeeze s.lanes) :
    (completed i s).dvalid = true → (completed i s).dig = squeeze (completed i s).lanes := by
  cases i with
  | nop => exact hs
  | pad r => exact hs
  | squeeze => simp [completed]
  | init => simp [completed]
  | absorb => simp [completed]
  | permute => simp [completed]
  | absp => simp [completed]

/-- A completion leaves nothing pending, no error behind (R273), and DIG valid where DVALID says so. -/
theorem State.Consistent.exec {i : Instr} {s t : State} (hs : s.Consistent) (h : Machine.exec i s = .next t) : t.Consistent := by
  obtain ⟨-, hpend, herr, hcode, -⟩ := exec_next_frame h
  have hvalid := completed_digest_valid i hs.digest_valid
  rw [← (exec_eq_next h).2] at hvalid
  refine ⟨?_, ?_, hvalid⟩
  · rw [herr, hcode]
    exact hs.errCode_iff
  · rw [hpend]
    simp

theorem State.Consistent.step {s t : State} (hs : s.Consistent) (h : Machine.step s = .next t) : t.Consistent := by
  rcases step_cases h with ⟨-, rfl⟩ | ⟨-, -, rfl⟩ | ⟨i, -, -, he⟩ | ⟨-, rfl⟩
  · exact (hs.setSched _).hostTurn
  · exact hs.setSched _
  · exact (hs.setSched _).exec he
  · exact State.Consistent.resetTurn _

/-- Settles O48: every turn keeps consistency, a host's by `State.Consistent.hostTurn` and a completion by `State.Consistent.exec`. -/
theorem stepKeepsConsistent : Obligations.StepKeepsConsistent := fun _ _ hs h => hs.step h

/-- A step of a consistent state answers a next state: the pending command is a legal one (R270). -/
theorem State.Consistent.exists_step {s : State} (hs : s.Consistent) : ∃ t, Machine.step s = .next t := by
  cases hc : currentTurn s with
  | host => exact ⟨_, step_host hc⟩
  | engine =>
    cases hp : s.pend with
    | none => exact ⟨_, step_engine_idle hc hp⟩
    | some i =>
      rw [step_engine hc hp]
      exact exec_completes _ (hs.pend_wellFormed i hp)
  | reset => exact ⟨_, step_reset hc⟩

/-- An ENGINE step records no error and clears none (R273). -/
theorem errors_of_engine_step {s t : State} (h : step s = .next t) (hc : currentTurn s = .engine) :
    t.err = s.err ∧ t.errCode = s.errCode := by
  rcases step_cases h with ⟨hc', -⟩ | ⟨-, -, rfl⟩ | ⟨i, -, -, he⟩ | ⟨hc', -⟩
  · exact Turn.noConfusion (hc.symm.trans hc')
  · exact ⟨rfl, rfl⟩
  · obtain ⟨-, -, herr, hcode, -⟩ := exec_next_frame he
    exact ⟨herr, hcode⟩
  · exact Turn.noConfusion (hc.symm.trans hc')

/-- Settles O49: the next state is there by `State.Consistent.exists_step`. -/
theorem stepNeverStops : Obligations.StepNeverStops := by
  intro s hs
  obtain ⟨t, h⟩ := hs.exists_step
  exact ⟨t, h, errors_of_engine_step h⟩

end Sys2Proof.Machine

/-! PROOFS. Keccak-f[1600] as a whole (spec/42_permuter.md): rotation (R13), rho and pi (R183), the constant tables (R186 to R189), and that
every step mapping, and so the permutation, loses nothing (R190). -/

namespace Sys2Proof.Machine

/-! ## Rotation (R13) -/

/-- Bit `j` of a rotated lane is the bit `n` places below, modulo 64. -/
theorem getLsbD_rotl64 (v : Lane) {n j : Nat} (hn : n < 64) (hj : j < 64) :
    (rotl64 v n).getLsbD j = v.getLsbD ((j + (64 - n)) % 64) := by
  unfold rotl64
  split
  · rename_i h0
    rw [h0, Nat.sub_zero, Nat.add_mod_right, Nat.mod_eq_of_lt hj]
  · rename_i h0
    rw [BitVec.getLsbD_or, BitVec.getLsbD_shiftLeft, BitVec.getLsbD_ushiftRight]
    by_cases hlt : j < n
    · have low : (j + (64 - n)) % 64 = 64 - n + j := by omega
      simp [hlt, low]
    · have high : (j + (64 - n)) % 64 = j - n := by omega
      simp [hlt, hj, high, BitVec.getLsbD_of_ge v (64 - n + j) (by omega)]

/-- Settles O24: `getLsbD_rotl64`. -/
theorem rotationMovesBits : Obligations.RotationMovesBits := fun v _ _ => getLsbD_rotl64 v

/-- Rotation loses no bit. -/
theorem rotl64_injective {n : Nat} (hn : n < 64) : Function.Injective (rotl64 · n) := by
  intro u v h
  apply BitVec.eq_of_getLsbD_eq
  intro j hj
  have hbit := congrArg (fun w => w.getLsbD ((j + n) % 64)) h
  have hback : ((j + n) % 64 + (64 - n)) % 64 = j := by omega
  simpa only [getLsbD_rotl64 _ hn (Nat.mod_lt (j + n) (by decide)), hback] using hbit

/-! ## Rho and pi (R183) -/

/-- After the first `n` lanes of the loop of R183 every lane whose source is among them holds it, rotated; the others are still 0. -/
theorem laneAt_rhoPi_loop (A : Lanes) (n : Nat) (hn : n ≤ 25) (x y : Nat) (hx : x < 5) :
    laneAt ((List.range n).foldl
      (fun B i => setLaneAt B (i / 5) (2 * (i % 5) + 3 * (i / 5)) (rotl64 (laneAt A (i % 5) (i / 5)) (rotOffset (i % 5) (i / 5))))
      zeroLanes) x y =
    if (x + 3 * y) % 5 + 5 * x < n then rotl64 (laneAt A ((x + 3 * y) % 5) x) (rotOffset ((x + 3 * y) % 5) x) else 0 := by
  induction n with
  | zero => simp
  | succ n ih =>
    rw [List.range_succ, List.foldl_append]
    simp only [List.foldl_cons, List.foldl_nil, laneAt_setLaneAt]
    rw [ih (by omega)]
    by_cases h : (x + 3 * y) % 5 + 5 * x = n
    · have hcol : n % 5 = (x + 3 * y) % 5 := by omega
      have hrow : n / 5 = x := by omega
      rw [hcol, hrow, if_pos ⟨rfl, by omega⟩, if_pos (by omega)]
    · have elsewhere : ¬ (n / 5 % 5 = x % 5 ∧ (2 * (n % 5) + 3 * (n / 5)) % 5 = y % 5) := by
        rintro ⟨hrow, hcol⟩
        have hx' : n / 5 = x := by omega
        rw [hx'] at hcol
        omega
      have hlt : (x + 3 * y) % 5 + 5 * x < n + 1 ↔ (x + 3 * y) % 5 + 5 * x < n := by omega
      simp only [if_neg elsewhere, hlt]

/-- Where each lane of rho-pi comes from: the standard's reading of R183. -/
theorem laneAt_rhoPi (A : Lanes) (x y : Nat) (hx : x < 5) :
    laneAt (rhoPi A) x y = rotl64 (laneAt A ((x + 3 * y) % 5) x) (rotOffset ((x + 3 * y) % 5) x) :=
  (laneAt_rhoPi_loop A 25 (by omega) x y hx).trans (if_pos (by omega))

/-- Where each lane goes (R183). -/
theorem laneAt_rhoPi_dest (A : Lanes) (x y : Nat) (hx : x < 5) (hy : y < 5) :
    laneAt (rhoPi A) y ((2 * x + 3 * y) % 5) = rotl64 (laneAt A x y) (rotOffset x y) := by
  have hsource : (y + 3 * ((2 * x + 3 * y) % 5)) % 5 = x := by omega
  rw [laneAt_rhoPi A y _ hy, hsource]

/-- The destinations of the 25 lanes, as the table of spec/42_permuter.md section 2 lists them. -/
theorem rhoPi_table : ∀ i, i < 25 →
    let d := ([0, 10, 20, 5, 15] ++ [16, 1, 11, 21, 6] ++ [7, 17, 2, 12, 22] ++ [23, 8, 18, 3, 13] ++ [14, 24, 9, 19, 4]).getD i 0
    d % 5 = i / 5 ∧ d / 5 = (2 * (i % 5) + 3 * (i / 5)) % 5 := by
  decide

/-- Settles O26: forwards by `laneAt_rhoPi_dest`, backwards by `laneAt_rhoPi`, and the table is that of the destinations. -/
theorem rhoPiMovesEveryLane : Obligations.RhoPiMovesEveryLane := by
  refine fun A => ⟨laneAt_rhoPi_dest A, fun x y hx _ => laneAt_rhoPi A x y hx, fun i hi => ?_⟩
  obtain ⟨hcol, hrow⟩ := rhoPi_table i hi
  intro d
  rw [hcol, hrow]
  exact laneAt_rhoPi_dest A (i % 5) (i / 5) (by omega) (by omega)

theorem rotOffset_lt : ∀ x, x < 5 → ∀ y, y < 5 → rotOffset x y < 64 := by
  decide

theorem rhoPi_injective : Function.Injective rhoPi := by
  intro A B h
  apply lanes_ext
  intro x y hx hy
  have hlane := congrArg (fun C => laneAt C y ((2 * x + 3 * y) % 5)) h
  simp only [laneAt_rhoPi_dest _ x y hx hy] at hlane
  exact rotl64_injective (rotOffset_lt x hx y hy) hlane

/-! ## The tables (R186 to R189) -/

/-- Settles O29: the tables and their generators are evaluated. -/
theorem constantTablesRegenerate : Obligations.ConstantTablesRegenerate := by
  refine ⟨by decide, by decide, ?_, by decide⟩
  decide

/-! ## Theta is injective (R182) -/

/-- A pattern of bits that theta's parities leave alone has this shape, `x` the column and `j` the bit: each bit is the one four columns on,
XOR the one a column on and a place below, `63` places being one less modulo 64. The step doubles the distances, as squaring does over two
elements. -/
theorem theta_relation_double {c : Nat → Nat → Bool} {n : Nat}
    (h : ∀ x j, c x j = (c (x + 4 * n) j ^^ c (x + n) (j + 63 * n))) (x j : Nat) :
    c x j = (c (x + 4 * (2 * n)) j ^^ c (x + 2 * n) (j + 63 * (2 * n))) := by
  have h1 := h (x + 4 * n) j
  have h2 := h (x + n) (j + 63 * n)
  have e1 : x + 4 * n + 4 * n = x + 4 * (2 * n) := by omega
  have e2 : x + n + 4 * n = x + 4 * n + n := by omega
  have e3 : x + n + n = x + 2 * n := by omega
  have e4 : j + 63 * n + 63 * n = j + 63 * (2 * n) := by omega
  rw [e1] at h1
  rw [e2, e3, e4] at h2
  rw [h x j, h1, h2]
  cases c (x + 4 * n + n) (j + 63 * n) <;> simp

theorem theta_relation_pow {c : Nat → Nat → Bool} (h : ∀ x j, c x j = (c (x + 4) j ^^ c (x + 1) (j + 63))) (k : Nat) :
    ∀ x j, c x j = (c (x + 4 * 2 ^ k) j ^^ c (x + 2 ^ k) (j + 63 * 2 ^ k)) := by
  induction k with
  | zero => simpa using h
  | succ k ih =>
    rw [pow_succ, Nat.mul_comm (2 ^ k) 2]
    exact theta_relation_double ih

/-- Five bits in a ring, each the XOR of its neighbours, are all 0. -/
theorem ring_of_five_eq_false : ∀ a b c d e : Bool,
    a = (e ^^ b) → b = (a ^^ c) → c = (b ^^ d) → d = (c ^^ e) → e = (d ^^ a) → a = false := by
  decide

/-- A pattern that theta's parities leave alone is 0: after 64 places the rotation is gone, and what is left relates the five columns of one
bit position. -/
theorem theta_relation_eq_false {c : Nat → Nat → Bool} (hx : ∀ x j, c (x + 5) j = c x j) (hj : ∀ x j, c x (j + 64) = c x j)
    (h : ∀ x j, c x j = (c (x + 4) j ^^ c (x + 1) (j + 63))) (x j : Nat) : c x j = false := by
  have hx' (n : Nat) (x j : Nat) : c (x + 5 * n) j = c x j := by
    induction n with
    | zero => rfl
    | succ n ih => rw [Nat.mul_succ, ← Nat.add_assoc, hx, ih]
  have hj' (n : Nat) (x j : Nat) : c x (j + 64 * n) = c x j := by
    induction n with
    | zero => rfl
    | succ n ih => rw [Nat.mul_succ, ← Nat.add_assoc, hj, ih]
  have neighbours (x : Nat) : c x j = (c (x + 1) j ^^ c (x + 4) j) := by
    have h64 := theta_relation_pow h 6 x j
    have e1 : x + 4 * 2 ^ 6 = x + 1 + 5 * 51 := by omega
    have e2 : x + 2 ^ 6 = x + 4 + 5 * 12 := by omega
    have e3 : j + 63 * 2 ^ 6 = j + 64 * 63 := by omega
    rwa [e1, e2, e3, hx', hx', hj'] at h64
  have n0 := neighbours x
  have n1 := neighbours (x + 1)
  have n2 := neighbours (x + 2)
  have n3 := neighbours (x + 3)
  have n4 := neighbours (x + 4)
  rw [show x + 1 + 4 = x + 5 from rfl, hx] at n1
  rw [show x + 2 + 4 = x + 1 + 5 from rfl, hx] at n2
  rw [show x + 3 + 4 = x + 2 + 5 from rfl, hx] at n3
  rw [show x + 4 + 1 = x + 5 from rfl, show x + 4 + 4 = x + 3 + 5 from rfl, hx, hx] at n4
  rw [Bool.xor_comm] at n0 n1 n2 n3 n4
  exact ring_of_five_eq_false _ (c (x + 1) j) (c (x + 2) j) (c (x + 3) j) (c (x + 4) j) n0 n1 n2 n3 n4

/-- The parities of theta's result: each is the input's parity, XOR the offset of its column, which a column holds five times. -/
theorem columnParity_theta (A : Lanes) (x : Nat) :
    rowAt (columnParity (theta A)) x = rowAt (columnParity A) x ^^^ rowAt (thetaOffsets (columnParity A)) x := by
  simp only [rowAt_columnParity, laneAt_theta]
  generalize rowAt (thetaOffsets (columnParity A)) x = d
  have cancel (a b : Lane) : a ^^^ b ^^^ b = a := by rw [BitVec.xor_assoc, BitVec.xor_self, BitVec.xor_zero]
  calc laneAt A x 0 ^^^ d ^^^ (laneAt A x 1 ^^^ d) ^^^ (laneAt A x 2 ^^^ d) ^^^ (laneAt A x 3 ^^^ d) ^^^ (laneAt A x 4 ^^^ d)
      = laneAt A x 0 ^^^ laneAt A x 1 ^^^ laneAt A x 2 ^^^ laneAt A x 3 ^^^ laneAt A x 4 ^^^ d ^^^ d ^^^ d ^^^ d ^^^ d := by ac_rfl
    _ = laneAt A x 0 ^^^ laneAt A x 1 ^^^ laneAt A x 2 ^^^ laneAt A x 3 ^^^ laneAt A x 4 ^^^ d := by rw [cancel, cancel]

/-- Bit `j` of the offset of a column, from the bits of the parities. -/
theorem getLsbD_thetaOffsets (C : Vector Lane 5) (x j : Nat) (hj : j < 64) :
    (rowAt (thetaOffsets C) x).getLsbD j =
      ((rowAt C (x + 4)).getLsbD j ^^ (rowAt C (x + 1)).getLsbD ((j + 63) % 64)) := by
  rw [rowAt_thetaOffsets, BitVec.getLsbD_xor, getLsbD_rotl64 _ (by decide) hj]

/-- How the parities of two states differ, column by column and bit by bit. -/
def parityDifference (A B : Lanes) (x j : Nat) : Bool :=
  (rowAt (columnParity A) x).getLsbD (j % 64) ^^ (rowAt (columnParity B) x).getLsbD (j % 64)

theorem xor_regroup : ∀ a b c a' b' c' : Bool,
    (a ^^ (b ^^ c)) = (a' ^^ (b' ^^ c')) → (a ^^ a') = ((b ^^ b') ^^ (c ^^ c')) := by
  decide

/-- Two states with the same image under theta have the same parities. -/
theorem parityDifference_eq_false {A B : Lanes} (h : theta A = theta B) (x j : Nat) : parityDifference A B x j = false := by
  refine theta_relation_eq_false ?_ ?_ ?_ x j
  · intro x j
    simp only [parityDifference, rowAt, Nat.add_mod_right]
  · intro x j
    simp only [parityDifference, Nat.add_mod_right]
  · intro x j
    have hbit := congrArg (fun C => (rowAt (columnParity C) x).getLsbD (j % 64)) h
    have hmod : (j % 64 + 63) % 64 = (j + 63) % 64 := by omega
    simp only [columnParity_theta, BitVec.getLsbD_xor, getLsbD_thetaOffsets _ x _ (Nat.mod_lt j (by decide)), hmod] at hbit
    exact xor_regroup _ _ _ _ _ _ hbit

theorem theta_injective : Function.Injective theta := by
  intro A B h
  have parity : columnParity A = columnParity B := by
    apply Vector.ext
    intro x hx
    apply BitVec.eq_of_getLsbD_eq
    intro j hj
    have hd := parityDifference_eq_false h x j
    simpa [parityDifference, rowAt, Nat.mod_eq_of_lt hx, Nat.mod_eq_of_lt hj] using hd
  apply lanes_ext
  intro x y _ _
  have hlane := congrArg (fun C => laneAt C x y) h
  simp only [laneAt_theta, parity] at hlane
  exact (BitVec.xor_left_inj _).mp hlane

/-! ## Chi and iota are injective (R184, R185) -/

/-- Chi on one row of five bits (R184). -/
def chiBit (a b c : Bool) : Bool := a ^^ (!b && c)

/-- A row of five bits can be read off its image. -/
theorem chiBit_row_injective : ∀ a0 a1 a2 a3 a4 b0 b1 b2 b3 b4 : Bool,
    chiBit a0 a1 a2 = chiBit b0 b1 b2 → chiBit a1 a2 a3 = chiBit b1 b2 b3 → chiBit a2 a3 a4 = chiBit b2 b3 b4 →
    chiBit a3 a4 a0 = chiBit b3 b4 b0 → chiBit a4 a0 a1 = chiBit b4 b0 b1 → a0 = b0 := by
  decide

theorem getLsbD_chi (A : Lanes) (x y j : Nat) (hj : j < 64) :
    (laneAt (chi A) x y).getLsbD j =
      chiBit ((laneAt A x y).getLsbD j) ((laneAt A (x + 1) y).getLsbD j) ((laneAt A (x + 2) y).getLsbD j) := by
  simp only [laneAt_chi, BitVec.getLsbD_xor, BitVec.getLsbD_and, BitVec.getLsbD_not, hj, decide_true, Bool.true_and, chiBit]

/-- Five columns on is the same column (R12). -/
theorem laneAt_add_five (A : Lanes) (x y : Nat) : laneAt A (x + 5) y = laneAt A x y := by
  simp only [laneAt, Nat.add_mod_right]

theorem chi_injective : Function.Injective chi := by
  intro A B h
  apply lanes_ext
  intro x y _ _
  apply BitVec.eq_of_getLsbD_eq
  intro j hj
  have bit (k : Nat) := congrArg (fun C => (laneAt C (x + k) y).getLsbD j) h
  simp only [getLsbD_chi _ _ y j hj, Nat.add_assoc] at bit
  have e5 (C : Lanes) : laneAt C (x + 5) y = laneAt C x y := laneAt_add_five C x y
  have e6 (C : Lanes) : laneAt C (x + 6) y = laneAt C (x + 1) y := laneAt_add_five C (x + 1) y
  have b3 := bit 3
  have b4 := bit 4
  rw [e5, e5] at b3
  rw [e5, e5, e6, e6] at b4
  exact chiBit_row_injective _ _ _ _ _ _ _ _ _ _ (bit 0) (bit 1) (bit 2) b3 b4

theorem iota_injective (i : Nat) : Function.Injective (iota · i) := by
  intro A B h
  apply lanes_ext
  intro x y _ _
  have hlane := congrArg (fun C => laneAt C x y) h
  simp only [laneAt_iota] at hlane
  split at hlane
  · rename_i h0
    rw [← laneAt_mod A, ← laneAt_mod B, ← h0.1, ← h0.2]
    exact (BitVec.xor_left_inj _).mp hlane
  · exact hlane

/-! ## The permutation (R190) -/

theorem keccakRound_injective (i : Nat) : Function.Injective (keccakRound · i) :=
  fun _ _ h => theta_injective (rhoPi_injective (chi_injective (iota_injective i h)))

theorem afterRounds_injective (n : Nat) : Function.Injective (afterRounds · n) := by
  induction n with
  | zero => exact fun _ _ h => h
  | succ n ih =>
    intro A B h
    simp only [afterRounds_succ] at h
    exact ih (keccakRound_injective n h)

/-- The states are finitely many. -/
theorem finite_lanes : Finite Lanes :=
  Finite.of_injective (fun (A : Lanes) (i : Fin 25) => A[i]) fun _ _ h => Vector.ext fun i hi => congrFun h ⟨i, hi⟩

/-- Settles O30: 24 injective rounds on finitely many states. -/
theorem keccakFIsAPermutation : Obligations.KeccakFIsAPermutation := by
  have := finite_lanes
  exact Finite.injective_iff_bijective.mp (afterRounds_injective 24)

end Sys2Proof.Machine

/-! PROOFS. Padding and absorbing (spec/40_padder.md, spec/41_absorber.md): the blocks of a padded message (R140 to R142), the command that
makes the last one (R145), and where each byte of a block goes (R160, R161). -/

namespace Sys2Proof.Machine

/-! ## The blocks of `pad(M)` (R140) -/

theorem blockByte_messageBlock (M : List Byte) (k j : Nat) (hj : j < 136) :
    blockByte (messageBlock M k) j = M.getD (136 * k + j) 0 := by
  rw [messageBlock, blockByte_ofFn, dif_pos hj]

/-- The last block: the tail of the message, then the pad bytes (R140, R142). -/
theorem blockByte_finalBlock (M : List Byte) (j : Nat) (hj : j < 136) :
    blockByte (finalBlock M) j =
      if j < M.length % 136 then M.getD (136 * (M.length / 136) + j) 0 else padByte (M.length % 136) j := by
  have zeroFill (k : Nat) (hk : M.length % 136 ≤ k) (hk' : k < 136) : blockByte (messageBlock M (M.length / 136)) k = 0 := by
    rw [blockByte_messageBlock M _ k hk', List.getD_eq_default _ _ (by omega)]
  rw [finalBlock, blockByte_orPadBytes_of_zero (by omega) zeroFill j hj, blockByte_messageBlock M _ j hj]

theorem length_pad (M : List Byte) : (pad M).length = M.length / 136 + 1 := by
  simp only [pad, List.length_append, List.length_map, List.length_range, List.length_singleton]

theorem getLast?_pad (M : List Byte) : (pad M).getLast? = some (finalBlock M) := by
  rw [pad, List.getLast?_concat]

theorem getElem?_pad (M : List Byte) {k : Nat} (hk : k < M.length / 136) : (pad M)[k]? = some (messageBlock M k) := by
  rw [pad, List.getElem?_append_left (by simpa using hk), List.getElem?_map, List.getElem?_range hk]
  rfl

/-- Settles O31: the blocks are those of `getElem?_pad` and `getLast?_pad`. -/
theorem paddingBlocks : Obligations.PaddingBlocks := by
  refine fun M => ⟨length_pad M, fun k j hk hj => ?_, finalBlock M, getLast?_pad M, blockByte_finalBlock M⟩
  have hlt : 136 * k + j < M.length := by omega
  refine ⟨_, _, getElem?_pad M hk, List.getElem?_eq_getElem hlt, ?_⟩
  rw [blockByte_messageBlock M k j hj, List.getD_eq_getElem _ _ hlt]

/-- The last block tells how long the tail is: behind a shorter tail stands a pad byte that differs from the one behind the longer
tail (R141). -/
theorem tail_length_le_of_finalBlock_eq {M N : List Byte} (h : finalBlock M = finalBlock N) :
    N.length % 136 ≤ M.length % 136 := by
  by_contra hlt
  have hN : N.length % 136 < 136 := Nat.mod_lt _ (by decide)
  have hbyte : padByte (M.length % 136) (N.length % 136) = padByte (N.length % 136) (N.length % 136) := by
    have hb := congrArg (blockByte · (N.length % 136)) h
    simpa only [blockByte_finalBlock _ _ hN, if_neg (show ¬ N.length % 136 < M.length % 136 by omega), lt_irrefl, if_false] using hb
  have hne : N.length % 136 ≠ M.length % 136 := by omega
  by_cases h135 : N.length % 136 = 135
  · rw [padByte, padByte, if_neg hne, if_pos rfl, if_pos h135, if_pos h135] at hbyte
    exact absurd hbyte (by decide)
  · rw [padByte, padByte, if_neg hne, if_pos rfl, if_neg h135, if_neg h135] at hbyte
    exact absurd hbyte (by decide)

/-- Settles O32: the blocks tell the message's length, and its bytes then stand in them. -/
theorem paddingIsInjective : Obligations.PaddingIsInjective := by
  intro M N h
  have hblocks : M.length / 136 = N.length / 136 := by
    have hl := congrArg List.length h
    rw [length_pad, length_pad] at hl
    omega
  have hfinal : finalBlock M = finalBlock N := by
    have hl := congrArg List.getLast? h
    rw [getLast?_pad, getLast?_pad] at hl
    exact Option.some.inj hl
  have htail : M.length % 136 = N.length % 136 :=
    le_antisymm (tail_length_le_of_finalBlock_eq hfinal.symm) (tail_length_le_of_finalBlock_eq hfinal)
  have hlen : M.length = N.length := by omega
  apply List.ext_getElem hlen
  intro i hM hN
  rw [← List.getD_eq_getElem M 0 hM, ← List.getD_eq_getElem N 0 hN]
  have hi : 136 * (i / 136) + i % 136 = i := by omega
  have hj : i % 136 < 136 := Nat.mod_lt _ (by decide)
  by_cases hfull : i / 136 < M.length / 136
  · have hb := congrArg (·[i / 136]?) h
    simp only [getElem?_pad M hfull, getElem?_pad N (hblocks ▸ hfull), Option.some.injEq] at hb
    have hbyte := congrArg (blockByte · (i % 136)) hb
    simpa only [blockByte_messageBlock _ _ _ hj, hi] using hbyte
  · have hq : M.length / 136 = i / 136 := by omega
    have hr : i % 136 < M.length % 136 := by omega
    have hbyte := congrArg (blockByte · (i % 136)) hfinal
    simpa only [blockByte_finalBlock _ _ hj, ← htail, if_pos hr, ← hblocks, hq, hi] using hbyte

/-- PAD makes the last block out of a buffer that holds the tail, whatever stands behind it (R145). -/
theorem padBlock_eq_finalBlock {M : List Byte} {B : Block}
    (h : ∀ j, j < M.length % 136 → blockByte B j = M.getD (136 * (M.length / 136) + j) 0) :
    padBlock (M.length % 136) B = finalBlock M := by
  apply block_ext
  intro j hj
  rw [blockByte_padBlock (by omega) B j hj, blockByte_finalBlock M j hj]
  by_cases hlt : j < M.length % 136
  · rw [if_pos hlt, if_pos hlt, h j hlt]
  · rw [if_neg hlt, if_neg hlt]

/-- Settles O33: `padBlock_eq_finalBlock`. -/
theorem padMakesTheFinalBlock : Obligations.PadMakesTheFinalBlock := by
  intro M s h
  have hr : (BitVec.ofNat 8 (M.length % 136)).toNat = M.length % 136 := toNat_argument (by omega)
  refine ⟨_, exec_pad _ s (by omega), ?_⟩
  rw [getLast?_pad, hr, padBlock_eq_finalBlock h]

/-! ## Absorbing (R160, R161) -/

theorem byteOf_blockLane (B : Block) (i k : Nat) (hk : k < 8) : byteOf (blockLane B i) k = blockByte B (8 * i + k) := by
  rw [blockLane, byteOf_laneOfBytes _ _ hk]

/-- Byte `j` of the state meets byte `j` of the block (R161). -/
theorem stateByte_absorb (A : Lanes) (B : Block) (j : Nat) (hj : j < 136) :
    stateByte (absorb A B) j = stateByte A j ^^^ blockByte B j := by
  have hlane : j / 8 % 5 + 5 * (j / 8 / 5) = j / 8 := by omega
  have hbyte : 8 * (j / 8) + j % 8 = j := by omega
  rw [stateByte, laneAt_absorb A B _ _ (by omega) (by omega), hlane, if_pos (by omega), byteOf_xor,
    byteOf_blockLane B _ _ (by omega), hbyte, stateByte]

/-- Absorbing a block a second time takes it out again (R161). -/
theorem absorb_absorb (A : Lanes) (B : Block) : absorb (absorb A B) B = A := by
  apply lanes_ext
  intro x y hx hy
  rw [laneAt_absorb _ B x y hx hy, laneAt_absorb A B x y hx hy]
  split_ifs
  · rw [BitVec.xor_assoc, BitVec.xor_self, BitVec.xor_zero]
  · rfl

/-- Settles O34: the lanes by `laneAt_absorb`, the bytes by `stateByte_absorb`. -/
theorem absorbXorsRateLanes : Obligations.AbsorbXorsRateLanes := by
  refine fun A B => ⟨fun i hi => ?_, fun x y hx hy hcap => ?_, stateByte_absorb A B, absorb_absorb A B⟩
  · have hlane : i % 5 + 5 * (i / 5) = i := by omega
    rw [laneAt_absorb_rate A B _ _ (by omega) (by omega), hlane, if_pos (by omega)]
  · rw [laneAt_absorb_rate A B x y hx hy, if_neg (by omega)]

end Sys2Proof.Machine

/-! PROOFS. Steps (spec/10_state.md section 5, spec/20_memory.md section 1, spec/30_encoding.md sections 3 and 5): the due turn runs the pending
command, performs one access, or polls STATUS. -/

namespace Sys2Proof.Machine

/-! ## Commands -/

/-- Settles O6: `step_of_completes`. -/
theorem stepRunsPendingCommand : Obligations.StepRunsPendingCommand := fun _ _ => step_of_completes

/-- Settles O7: the word is its command, which `placeCommand` puts into PEND with the ENGINE's turn next. -/
theorem placedWordRunsNext : Obligations.PlacedWordRunsNext := by
  intro s i hi
  rw [State.withFetchWord, decodeTableWord_encode hi]
  exact step_engine (i := i) rfl rfl

/-- An idle core accepts the word of a well-formed command (R115). -/
theorem issueCommand_encode {i : Instr} (hi : i.WellFormed) {s : State} (hp : s.pend = none) :
    issueCommand (encode i) s = s.setPend i := by
  rcases issueCommand_cases (encode i) s with ⟨hb, -⟩ | ⟨-, e, he, -⟩ | ⟨-, j, hj, h⟩
  · exact absurd hp hb
  · rw [decode_encode hi] at he
    cases he
  · rw [decode_encode hi] at hj
    cases hj
    exact h

/-- Settles O8: the host's turn accepts the command by `issueCommand_encode`, and the ENGINE's completes it. -/
theorem commandWrittenToCmdRuns : Obligations.CommandWrittenToCmdRuns := by
  intro s i v ops ts hi hv hp hs hh
  have accepted : step s = .next { s with host := ops, sched := .engine :: ts, pend := some i } := by
    rw [step_host (currentTurn_cons hs), hs, List.tail_cons, hostTurn_write (s := s.setSched (.engine :: ts)) hh (by decide),
      winWrite_cmd, hv, issueCommand_encode hi (s := (s.setSched (.engine :: ts)).setHost ops) hp]
    rfl
  rw [run_succ 1 accepted, run_one, step_engine (i := i) rfl rfl]
  rfl

/-! ## One access (R14, R70, R71) -/

/-- Settles O9: a write by `hostTurn_write`, a read by `hostTurn_rd`. -/
theorem hostStepAccessesWindow : Obligations.HostStepAccessesWindow := by
  intro s o w ops hc ho q
  refine ⟨fun v hh => ?_, fun hh => ?_⟩
  · rw [step_host hc, hostTurn_write (s := s.setSched s.sched.tail) hh ho]
    rfl
  · rw [step_host hc, hostTurn_rd (s := s.setSched s.sched.tail) hh ho]
    rfl

/-- An access outside the window is an operation done, and nothing else (R71, log 17). -/
theorem hostTurn_outside {s : State} {addr : Nat} {w : Width} {v : BitVec 64} {ops : List HostOp}
    (ha : addr < Config.coreBase ∨ Config.coreBase + 0x400 ≤ addr)
    (hh : s.host = .write addr w v :: ops ∨ s.host = .read addr w :: ops) : hostTurn s = s.setHost ops := by
  rcases hh with hh | hh
  · simp only [hostTurn, hh, hostWrite, windowOffset_eq_none ha]
  · simp only [hostTurn, hh, hostRead, windowOffset_eq_none ha]

/-- Settles O10: `hostTurn_outside`. -/
theorem accessOutsideWindowHasNoEffect : Obligations.AccessOutsideWindowHasNoEffect := by
  intro s addr w v ops hc ha hh
  rw [step_host hc, hostTurn_outside (s := s.setSched s.sched.tail) ha hh]
  rfl

/-! ## Polling (R119) -/

/-- Settles O11: the value polled is the STATUS word, whose bit 0 is BUSY, and the two polls are `hostTurn_poll_busy` and
`hostTurn_poll_idle`. -/
theorem waitPollsUntilIdle : Obligations.WaitPollsUntilIdle := by
  intro s ops hc hh
  refine ⟨statusWord s, ?_, by rw [winRead_status], ?_⟩
  · rw [statusWord_getLsbD_zero, State.busy_iff]
  rw [step_host hc, statusWord_getLsbD_zero]
  by_cases hp : s.pend = none
  · rw [hostTurn_poll_idle (s := s.setSched s.sched.tail) hh hp, (State.not_busy_iff s).mpr hp]
    rfl
  · rw [hostTurn_poll_busy (s := s.setSched s.sched.tail) hh hp, (State.busy_iff s).mpr hp, if_pos rfl, ← hh]
    rfl

end Sys2Proof.Machine

/-! PROOFS. The register window, continued (spec/20_memory.md sections 2 to 4, spec/60_exceptions.md section 3): its bytes (R73 to R75), reads and
writes of data regions and control registers (R78, R79), and the errors of an access in their order (R275). -/

namespace Sys2Proof.Machine

/-! ## The bytes of the window (R73 to R75) -/

theorem winByte_state (s : State) {a : Nat} (h : a < 0x0C8) : winByte s a = stateByte s.lanes a := by
  rw [winByte, if_pos h]

theorem winByte_block (s : State) {a : Nat} (h : 0x100 ≤ a ∧ a < 0x188) : winByte s a = blockByte s.buf (a - 0x100) := by
  rw [winByte, if_neg (by omega), if_pos h]

theorem winByte_digest (s : State) {a : Nat} (h : 0x200 ≤ a ∧ a < 0x220) : winByte s a = digestByte s.dig (a - 0x200) := by
  rw [winByte, if_neg (by omega), if_neg (by omega), if_pos h]

/-- Byte `8i + k` of the state is byte `k` of lane `i` (R73). -/
theorem stateByte_lane (A : Lanes) (i k : Nat) (hk : k < 8) : stateByte A (8 * i + k) = byteOf (laneAt A (i % 5) (i / 5)) k := by
  have hlane : (8 * i + k) / 8 = i := by omega
  have hbyte : (8 * i + k) % 8 = k := by omega
  rw [stateByte, hlane, hbyte]

/-- Settles O36: `winByte_state`, `winByte_block` and `winByte_digest`. -/
theorem windowByteMap : Obligations.WindowByteMap := by
  refine fun s => ⟨fun i k hi hk => ?_, fun j hj => ?_, fun j hj => ?_⟩
  · rw [winByte_state s (by omega), stateByte_lane _ i k hk]
  · rw [winByte_block s (by omega), Nat.add_sub_cancel_left]
  · rw [winByte_digest s (by omega), Nat.add_sub_cancel_left]

/-- Writing bytes of the state changes the window at those bytes alone (R79). -/
theorem winByte_writeState (s : State) {o n : Nat} (v : BitVec 64) (ho : o + n ≤ 0x0C8) (a : Nat) :
    winByte ((s.setLanes (writeStateBytes s.lanes o n v)).setDvalid false) a =
      if o ≤ a ∧ a < o + n then byteOf v (a - o) else winByte s a := by
  by_cases ha : a < 0x0C8
  · rw [winByte_state _ ha, winByte_state s ha]
    exact stateByte_writeStateBytes s.lanes o n v a ho ha
  · rw [if_neg (by omega), winByte, winByte, if_neg ha, if_neg ha]
    rfl

/-- Writing bytes of the buffer changes the window at those bytes alone (R79). -/
theorem winByte_writeBlock (s : State) {o n : Nat} (v : BitVec 64) (hlo : 0x100 ≤ o) (ho : o + n ≤ 0x188) (a : Nat) :
    winByte (s.setBuf (writeBlockBytes s.buf (o - 0x100) n v)) a =
      if o ≤ a ∧ a < o + n then byteOf v (a - o) else winByte s a := by
  by_cases ha : 0x100 ≤ a ∧ a < 0x188
  · have hshift : (o - 0x100 ≤ a - 0x100 ∧ a - 0x100 < o - 0x100 + n) ↔ (o ≤ a ∧ a < o + n) := by omega
    have hsub : a - 0x100 - (o - 0x100) = a - o := by omega
    rw [winByte_block _ ha, winByte_block s ha, State.setBuf_buf, blockByte_writeBlockBytes _ _ _ _ _ (by omega), hsub]
    simp only [hshift]
  · rw [if_neg (by omega), winByte, winByte, if_neg ha, if_neg ha]
    rfl

/-! ## Data regions of an idle core (R78, R79) -/

/-- The bytes that a read of a data region delivers: those of the window, and 0 above the width (R78). -/
theorem byteOf_winRead_data {s : State} {o : Nat} {w : Width} (hp : s.pend = none) (ha : o % w.bytes = 0)
    (ho : o + w.bytes ≤ 0x0C8 ∨ (0x100 ≤ o ∧ o + w.bytes ≤ 0x188) ∨ (0x200 ≤ o ∧ o + w.bytes ≤ 0x220)) (k : Nat) (hk : k < 8) :
    byteOf (winRead o w s).1 k = if k < w.bytes then winByte s (o + k) else 0 := by
  rw [winRead_data hp ha ho, byteOf_valueOfBytes _ _ k hk]

/-- Settles O37: `winRead_data` and `byteOf_winRead_data`. -/
theorem dataReadReturnsBytes : Obligations.DataReadReturnsBytes := fun _ _ _ hp ha ho =>
  ⟨by rw [winRead_data hp ha ho], byteOf_winRead_data hp ha ho⟩

/-- Settles O39: `winWrite_state` and `winByte_writeState`. -/
theorem stateWriteChangesItsBytes : Obligations.StateWriteChangesItsBytes := by
  intro s o w v hp ha ho
  rw [winWrite_state v hp ha ho]
  exact ⟨winByte_writeState s v ho, rfl⟩

/-- Settles O40: `winWrite_block` and `winByte_writeBlock`. -/
theorem blockWriteChangesItsBytes : Obligations.BlockWriteChangesItsBytes := by
  intro s o w v hp ha hlo ho
  rw [winWrite_block v hp ha hlo ho]
  exact ⟨winByte_writeBlock s v hlo ho, rfl⟩

/-- An accepted write to STATE or BLOCK leaves the core idle, with the written bytes and the old ones elsewhere (R79). -/
theorem winByte_winWrite_data {s : State} {o : Nat} {w : Width} (v : BitVec 64) (hp : s.pend = none) (ha : o % w.bytes = 0)
    (ho : o + w.bytes ≤ 0x0C8 ∨ (0x100 ≤ o ∧ o + w.bytes ≤ 0x188)) :
    (winWrite o w v s).pend = none ∧
    ∀ a, winByte (winWrite o w v s) a = if o ≤ a ∧ a < o + w.bytes then byteOf v (a - o) else winByte s a := by
  rcases ho with ho | ⟨hlo, ho⟩
  · rw [winWrite_state v hp ha ho]
    exact ⟨hp, winByte_writeState s v ho⟩
  · rw [winWrite_block v hp ha hlo ho]
    exact ⟨hp, winByte_writeBlock s v hlo ho⟩

/-- Every byte of a read that follows a write, whatever the two widths (R80). -/
theorem byteOf_winRead_winWrite {s : State} {o o' : Nat} {w w' : Width} (v : BitVec 64) (hp : s.pend = none)
    (ha : o % w.bytes = 0) (ha' : o' % w'.bytes = 0) (ho : o + w.bytes ≤ 0x0C8 ∨ (0x100 ≤ o ∧ o + w.bytes ≤ 0x188))
    (ho' : o' + w'.bytes ≤ 0x0C8 ∨ (0x100 ≤ o' ∧ o' + w'.bytes ≤ 0x188)) (k : Nat) (hk : k < 8) :
    byteOf (winRead o' w' (winWrite o w v s)).1 k =
      if k < w'.bytes then
        if o ≤ o' + k ∧ o' + k < o + w.bytes then byteOf v (o' + k - o) else winByte s (o' + k)
      else 0 := by
  obtain ⟨hp', hbytes⟩ := winByte_winWrite_data v hp ha ho
  rw [byteOf_winRead_data hp' ha' (by omega) k hk, hbytes]

/-- A read whose bytes have all just been written delivers them, from the written value (R80). -/
theorem winRead_winWrite_covered {s : State} {o o' : Nat} {w w' : Width} (v u : BitVec 64) (hp : s.pend = none)
    (ha : o % w.bytes = 0) (ha' : o' % w'.bytes = 0) (ho : o + w.bytes ≤ 0x0C8) (hin : o ≤ o' ∧ o' + w'.bytes ≤ o + w.bytes)
    (hu : ∀ k, k < 8 → byteOf u k = if k < w'.bytes then byteOf v (o' + k - o) else 0) :
    (winRead o' w' (winWrite o w v s)).1 = u := by
  apply eq_of_byteOf_eq
  intro k hk
  rw [byteOf_winRead_winWrite v hp ha ha' (.inl ho) (.inl (by omega)) k hk, hu k hk]
  by_cases hlt : k < w'.bytes
  · rw [if_pos hlt, if_pos hlt, if_pos (by omega)]
  · rw [if_neg hlt, if_neg hlt]

/-- Settles O41: `byteOf_winRead_winWrite`; the example's reads lie inside its write, whose eight bytes are lane (0,0). -/
theorem mixedWidthReadSeesBytes : Obligations.MixedWidthReadSeesBytes := by
  constructor
  · intro s o o' w w' v hp ha ha' ho ho' k hk
    have hw := w'.bytes_cases
    rw [byteOf_winRead_winWrite v hp ha ha' ho ho' k (by omega), if_pos hk]
  · intro s hp
    refine ⟨?_, ?_, ?_⟩
    · exact winRead_winWrite_covered _ _ hp rfl rfl (by decide) (by decide) (by decide)
    · exact winRead_winWrite_covered _ _ hp rfl rfl (by decide) (by decide) (by decide)
    · rw [winWrite_state _ hp rfl (by decide)]
      apply eq_of_byteOf_eq
      intro k hk
      have hbyte := stateByte_writeStateBytes s.lanes 0 8 0x0807060504030201 k (by decide) (by omega)
      rw [if_pos (by omega), Nat.sub_zero] at hbyte
      have hlane := stateByte_lane (writeStateBytes s.lanes 0 8 0x0807060504030201) 0 k hk
      rw [Nat.mul_zero, Nat.zero_add, hbyte] at hlane
      exact hlane.symm

/-! ## Control registers (R38, R78) -/

/-- The bits of the STATUS word (R38). -/
theorem getLsbD_statusWord (s : State) (j : Nat) (hj : j < 64) : (statusWord s).getLsbD j =
    (decide (j = 0) && s.busy || decide (j = 1) && s.dvalid || decide (j = 2) && s.err ||
      decide (8 ≤ j) && (errCodeBits s.errCode).getLsbD (j - 8)) := by
  simp only [statusWord, BitVec.getLsbD_or, BitVec.getLsbD_shiftLeft, BitVec.getLsbD_setWidth, BitVec.getLsbD_ofBool]
  grind

/-- Settles O38: CMD and BLOCK_COUNT are what the arms of `winRead` say, and STATUS has the bits of `getLsbD_statusWord`. -/
theorem controlReads : Obligations.ControlReads := by
  refine fun s => ⟨rfl, ⟨_, rfl, ?_⟩, _, winRead_status s, ?_, ?_, ?_, ?_, ?_, ?_⟩
  · rw [BitVec.toNat_setWidth]
    exact Nat.mod_eq_of_lt (by have := s.blockCount.isLt; omega)
  · rw [statusWord_getLsbD_zero, State.busy_iff]
  · rw [getLsbD_statusWord s 1 (by decide)]
    simp
  · rw [getLsbD_statusWord s 2 (by decide)]
    simp
  · intro j hlo hhi
    rw [getLsbD_statusWord s j (by omega)]
    simp [show j ≠ 0 by omega, show j ≠ 1 by omega, show j ≠ 2 by omega, show ¬ 8 ≤ j by omega]
  · intro j hj
    rw [getLsbD_statusWord s (8 + j) (by omega)]
    simp [show 8 + j ≠ 1 by omega, show 8 + j ≠ 2 by omega]
  · intro j hj
    by_cases h64 : j < 64
    · rw [getLsbD_statusWord s j h64, BitVec.getLsbD_of_ge _ (j - 8) (by omega)]
      simp [show j ≠ 0 by omega, show j ≠ 1 by omega, show j ≠ 2 by omega]
    · exact BitVec.getLsbD_of_ge _ _ (by omega)

/-! ## The errors of an access, in their order (R275) -/

/-- The checks that come first, for every access: alignment, a listed offset, and width 4 at a control register (R76, R81). -/
def ChecksFail (o : Nat) (w : Width) : Prop := o % w.bytes ≠ 0 ∨ reservedOffset o ∨ (controlOffset o ∧ w.bytes ≠ 4)

/-- An access that passes these checks lies in a data region or is a 4-byte access of a control register. -/
theorem access_cases {o : Nat} {w : Width} (h : ¬ ChecksFail o w) : o % w.bytes = 0 ∧
    (o + w.bytes ≤ 0x0C8 ∨ (0x100 ≤ o ∧ o + w.bytes ≤ 0x188) ∨ (0x200 ≤ o ∧ o + w.bytes ≤ 0x220) ∨
      (o = 0x300 ∧ w = .w4) ∨ (o = 0x308 ∧ w = .w4) ∨ (o = 0x310 ∧ w = .w4)) := by
  unfold ChecksFail at h
  cases w <;> simp [Width.bytes] at h ⊢ <;> omega

/-- A region's first offset is its lowest, so an access that fails the checks fails those of `winRead` and `winWrite`. -/
theorem checks_of_checksFail {o : Nat} {w : Width} (h : ChecksFail o w) :
    o % w.bytes ≠ 0 ∨ region o w.bytes = .unmapped ∨ ((region o w.bytes).isControl ∧ w.bytes ≠ 4) := by
  rcases h with ha | hr | ⟨hc, h4⟩
  · exact .inl ha
  · exact .inr (.inl (region_eq_unmapped_of_reservedOffset hr w))
  · have hpos := w.bytes_cases
    obtain ⟨hS, hB, hD, -⟩ := region_spec o w.bytes
    cases hreg : region o w.bytes with
    | state => have := hS hreg; omega
    | block => have := hB hreg; omega
    | digest => have := hD hreg; omega
    | cmd => exact .inr (.inr ⟨rfl, h4⟩)
    | status => exact .inr (.inr ⟨rfl, h4⟩)
    | count => exact .inr (.inr ⟨rfl, h4⟩)
    | unmapped => exact .inr (.inl rfl)

theorem winRead_of_checksFail {o : Nat} {w : Width} (h : ChecksFail o w) (s : State) :
    winRead o w s = (0, s.recorded .badAccess) := by
  rw [← raiseErr_eq_recorded]
  unfold winRead
  rcases checks_of_checksFail h with h | h | h
  · rw [if_pos h, failRead]
  · rw [if_pos h, ite_self, failRead]
  · rw [if_pos h, ite_self, ite_self, failRead]

theorem winWrite_of_checksFail {o : Nat} {w : Width} (h : ChecksFail o w) (v : BitVec 64) (s : State) :
    winWrite o w v s = s.recorded .badAccess := by
  rw [← raiseErr_eq_recorded]
  unfold winWrite
  rcases checks_of_checksFail h with h | h | h
  · rw [if_pos h]
  · rw [if_pos h, ite_self]
  · rw [if_pos h, ite_self, ite_self]

theorem accessError_of_checksFail {o : Nat} {w : Width} (h : ChecksFail o w) (s : State) (v : Option (BitVec 64)) :
    accessError s o w v = some .badAccess := by
  unfold accessError
  rcases h with h | h | h
  · rw [if_pos h]
  · rw [if_pos h, ite_self]
  · rw [if_pos h, ite_self, ite_self]

/-- Past these checks a read has no error left (R83). -/
theorem accessError_read {o : Nat} {w : Width} (h : ¬ ChecksFail o w) (s : State) : accessError s o w none = none := by
  obtain ⟨ha, hr, hc⟩ : ¬ o % w.bytes ≠ 0 ∧ ¬ reservedOffset o ∧ ¬ (controlOffset o ∧ w.bytes ≠ 4) := by
    simpa only [ChecksFail, not_or] using h
  rw [accessError, if_neg ha, if_neg hr, if_neg hc]

/-- Past these checks a write can fail at a read-only location, as a data write while busy, or as a command (R275). -/
theorem accessError_write {o : Nat} {w : Width} (h : ¬ ChecksFail o w) (s : State) (v : BitVec 64) :
    accessError s o w (some v) =
      if (0x200 ≤ o ∧ o ≤ 0x21F) ∨ (0x310 ≤ o ∧ o ≤ 0x313) then some .badAccess
      else if writableData o ∧ s.pend ≠ none then some .busyViolation
      else if o = 0x300 then commandError s (v.extractLsb' 0 32)
      else none := by
  obtain ⟨ha, hr, hc⟩ : ¬ o % w.bytes ≠ 0 ∧ ¬ reservedOffset o ∧ ¬ (controlOffset o ∧ w.bytes ≠ 4) := by
    simpa only [ChecksFail, not_or] using h
  rw [accessError, if_neg ha, if_neg hr, if_neg hc]

/-- An access inside a data region is in that region (R78). -/
theorem region_state {o n : Nat} (h : o + n ≤ 0x0C8) : region o n = .state := if_pos h

theorem region_block {o n : Nat} (h : 0x100 ≤ o ∧ o + n ≤ 0x188) : region o n = .block := by
  rw [region, if_neg (by omega), if_pos h]

theorem region_digest {o n : Nat} (h : 0x200 ≤ o ∧ o + n ≤ 0x220) : region o n = .digest := by
  rw [region, if_neg (by omega), if_neg (by omega), if_pos h]

/-- Every data region is read by `readData`, busy or idle (R78, R85). -/
theorem winRead_eq_readData {o : Nat} {w : Width} (s : State) (ha : o % w.bytes = 0)
    (ho : o + w.bytes ≤ 0x0C8 ∨ (0x100 ≤ o ∧ o + w.bytes ≤ 0x188) ∨ (0x200 ≤ o ∧ o + w.bytes ≤ 0x220)) :
    winRead o w s = readData o w s := by
  rcases ho with ho | ho | ho
  · simp [winRead, ha, region_state ho, Region.isControl]
  · simp [winRead, ha, region_block ho, Region.isControl]
  · simp [winRead, ha, region_digest ho, Region.isControl]

/-- A read of a data region at most draws a value (R85). -/
theorem readData_snd (o : Nat) (w : Width) (s : State) :
    (readData o w s).2 = { s with draws := if s.busy then s.draws + 1 else s.draws } := by
  unfold readData
  split_ifs <;> rfl

/-- A data write while a command is pending is a BUSY_VIOLATION (R85). -/
theorem winWrite_data_busy {s : State} {o : Nat} {w : Width} (v : BitVec 64) (hp : s.pend ≠ none) (ha : o % w.bytes = 0)
    (ho : o + w.bytes ≤ 0x0C8 ∨ (0x100 ≤ o ∧ o + w.bytes ≤ 0x188)) : winWrite o w v s = s.recorded .busyViolation := by
  have hb := (State.busy_iff s).mpr hp
  rw [← raiseErr_eq_recorded]
  rcases ho with ho | ho
  · simp [winWrite, ha, region_state ho, Region.isControl, writeState, hb]
  · simp [winWrite, ha, region_block ho, Region.isControl, writeBlock, hb]

/-- A write to the digest is a BAD_ACCESS: the region is read-only (R79, R82). -/
theorem winWrite_digest {o : Nat} {w : Width} (v : BitVec 64) (s : State) (ho : 0x200 ≤ o ∧ o + w.bytes ≤ 0x220) :
    winWrite o w v s = s.recorded .badAccess := by
  rw [← raiseErr_eq_recorded]
  simp [winWrite, region_digest ho]

/-- Settles O46: a busy read is `readData`'s free value, a busy write `winWrite_data_busy`. -/
theorem busyDataAccess : Obligations.BusyDataAccess := by
  intro s o w hp ha
  have hb := (State.busy_iff s).mpr hp
  refine ⟨fun ho => ⟨fun k hk hk8 => ?_, ?_⟩, fun ho v => winWrite_data_busy v hp ha ho⟩
  · rw [winRead_eq_readData s ha ho, readData, if_pos hb, byteOf_lowBytes _ _ k hk8, if_neg (by omega)]
  · rw [winRead_eq_readData s ha ho, readData_snd, if_pos hb]

/-- Settles O42: a misaligned access fails the first check; the edges are multiples of 8, and so of every width. -/
theorem misalignedAccessIsBadAccess : Obligations.MisalignedAccessIsBadAccess := by
  refine ⟨fun s o w v ha => ⟨winRead_of_checksFail (.inl ha) s, winWrite_of_checksFail (.inl ha) v s⟩, fun o w ha b hb => ?_⟩
  have hedge : ∀ b ∈ [0x0C8, 0x100, 0x188, 0x200, 0x220, 0x300, 0x308, 0x310, 0x400], b % 8 = 0 := by decide
  have h8 := hedge b hb
  rcases w.bytes_cases with h | h | h | h <;> rw [h] at ha ⊢ <;> omega

/-- Past the first checks a read changes at most the draw counter (R83, log 5). -/
theorem winRead_snd_of_checks {o : Nat} {w : Width} (h : ¬ ChecksFail o w) (s : State) :
    ∃ n, (winRead o w s).2 = { s with draws := n } := by
  have data (hr : winRead o w s = readData o w s) : ∃ n, (winRead o w s).2 = { s with draws := n } := by
    rw [hr, readData_snd]
    exact ⟨_, rfl⟩
  obtain ⟨ha, ho | ho | ho | ⟨rfl, rfl⟩ | ⟨rfl, rfl⟩ | ⟨rfl, rfl⟩⟩ := access_cases h
  · exact data (winRead_eq_readData s ha (.inl ho))
  · exact data (winRead_eq_readData s ha (.inr (.inl ho)))
  · exact data (winRead_eq_readData s ha (.inr (.inr ho)))
  · exact ⟨s.draws, rfl⟩
  · exact ⟨s.draws, rfl⟩
  · exact ⟨s.draws, rfl⟩

/-- What an access list's answer `r` says of a write: its error and nothing else, or no error recorded, a clearing STATUS write apart. -/
def WriteObeys (s : State) (o : Nat) (w : Width) (v : BitVec 64) (r : Option IfaceError) : Prop :=
  (∀ e, r = some e → winWrite o w v s = s.recorded e) ∧
  (r = none → ¬ (o = 0x308 ∧ v.getLsbD 2 = true) → (winWrite o w v s).err = s.err ∧ (winWrite o w v s).errCode = s.errCode)

theorem writeObeys_some {s : State} {o : Nat} {w : Width} {v : BitVec 64} {e : IfaceError} (h : winWrite o w v s = s.recorded e) :
    WriteObeys s o w v (some e) :=
  ⟨fun _ he => Option.some.inj he ▸ h, by simp⟩

theorem writeObeys_none {s : State} {o : Nat} {w : Width} {v : BitVec 64} (h : ¬ (o = 0x308 ∧ v.getLsbD 2 = true) →
    (winWrite o w v s).err = s.err ∧ (winWrite o w v s).errCode = s.errCode) : WriteObeys s o w v none :=
  ⟨by simp, fun _ => h⟩

/-- Past the first checks a write does what the rest of the list says (R79, R275). -/
theorem winWrite_obeys {o : Nat} {w : Width} (h : ¬ ChecksFail o w) (s : State) (v : BitVec 64) :
    WriteObeys s o w v (accessError s o w (some v)) := by
  have hpos := w.bytes_cases
  rw [accessError_write h]
  have data (ha : o % w.bytes = 0) (ho : o + w.bytes ≤ 0x0C8 ∨ (0x100 ≤ o ∧ o + w.bytes ≤ 0x188)) : WriteObeys s o w v
      (if writableData o ∧ s.pend ≠ none then some .busyViolation
        else if o = 0x300 then commandError s (v.extractLsb' 0 32) else none) := by
    by_cases hp : s.pend = none
    · rw [if_neg (fun hb => hb.2 hp), if_neg (by omega)]
      refine writeObeys_none fun _ => ?_
      rcases ho with ho | ⟨hlo, ho⟩
      · rw [winWrite_state v hp ha ho]
        exact ⟨rfl, rfl⟩
      · rw [winWrite_block v hp ha hlo ho]
        exact ⟨rfl, rfl⟩
    · rw [if_pos ⟨by unfold writableData; omega, hp⟩]
      exact writeObeys_some (winWrite_data_busy v hp ha ho)
  obtain ⟨ha, ho | ho | ho | ⟨rfl, rfl⟩ | ⟨rfl, rfl⟩ | ⟨rfl, rfl⟩⟩ := access_cases h
  · rw [if_neg (by omega)]
    exact data ha (.inl ho)
  · rw [if_neg (by omega)]
    exact data ha (.inr ho)
  · rw [if_pos (by omega)]
    exact writeObeys_some (winWrite_digest v s ho)
  · rw [if_neg (by decide), if_neg (fun hb => absurd hb.1 (by decide)), if_pos rfl]
    cases he : commandError s (v.extractLsb' 0 32) with
    | some e => exact writeObeys_some (issueCommand_of_commandError he)
    | none =>
      obtain ⟨i, -, hi⟩ := issueCommand_of_no_commandError he
      refine writeObeys_none fun _ => ?_
      rw [winWrite_cmd, hi]
      exact ⟨rfl, rfl⟩
  · rw [if_neg (by decide), if_neg (fun hb => absurd hb.1 (by decide)), if_neg (by decide)]
    refine writeObeys_none fun hv => ?_
    rw [winWrite_status, writeStatus_eq, if_neg (fun hb => hv ⟨rfl, hb⟩)]
    exact ⟨rfl, rfl⟩
  · rw [if_pos (by decide)]
    exact writeObeys_some (raiseErr_eq_recorded s .badAccess)

/-- Settles O44: an access that fails the first checks is a BAD_ACCESS; past them a read has no error left and a write obeys the rest of the
list. -/
theorem accessErrorsFollowPriority : Obligations.AccessErrorsFollowPriority := by
  intro s o w _
  by_cases h : ChecksFail o w
  · simp only [accessError_of_checksFail h, winRead_of_checksFail h, winWrite_of_checksFail h, Option.some.injEq, reduceCtorEq]
    refine ⟨fun e he => he ▸ rfl, False.elim, fun v => ⟨fun e he => he ▸ rfl, False.elim⟩⟩
  · refine ⟨fun e he => ?_, fun _ => winRead_snd_of_checks h s, winWrite_obeys h s⟩
    rw [accessError_read h] at he
    cases he

end Sys2Proof.Machine

/-! PROOFS. What can write each part of the state (spec/10_state.md sections 1, 2 and 4), and that nothing the host does reaches a pending
command (spec/60_exceptions.md section 3). -/

namespace Sys2Proof.Machine

/-- What a step can do, with the completion as `completed` says. -/
theorem step_cases_completed {s t : State} (h : step s = .next t) :
    (currentTurn s = .host ∧ t = hostTurn (s.setSched s.sched.tail)) ∨
    (currentTurn s = .engine ∧ s.pend = none ∧ t = s.setSched s.sched.tail) ∨
    (∃ i, s.Completes i ∧ t = completed i (s.setSched s.sched.tail)) ∨
    (currentTurn s = .reset ∧ t = resetTurn (s.setSched s.sched.tail)) := by
  rcases step_cases h with hh | hn | ⟨i, hc, hp, he⟩ | hr
  · exact .inl hh
  · exact .inr (.inl hn)
  · exact .inr (.inr (.inl ⟨i, ⟨hc, hp⟩, (exec_eq_next he).2⟩))
  · exact .inr (.inr (.inr hr))

/-- The commands that change the state (R32). -/
theorem completed_lanes (i : Instr) (s : State) :
    (completed i s).lanes = s.lanes ∨ i = .init ∨ i = .absorb ∨ i = .permute ∨ i = .absp := by
  cases i <;> simp [completed]

/-- The commands that change the buffer (R33). -/
theorem completed_buf (i : Instr) (s : State) : (completed i s).buf = s.buf ∨ (∃ r, i = .pad r) ∨ i = .init := by
  cases i <;> simp [completed]

/-- The commands that change the digest (R34). -/
theorem completed_dig (i : Instr) (s : State) : (completed i s).dig = s.dig ∨ i = .squeeze ∨ i = .init := by
  cases i <;> simp [completed]

/-- The commands that change the counter, and how (R43). -/
theorem completed_blockCount (i : Instr) (s : State) : (completed i s).blockCount =
    if i = .absorb ∨ i = .absp then s.blockCount + 1 else if i = .init then 0 else s.blockCount := by
  cases i <;> simp [completed]

/-- A host turn changes the state only by an accepted write to STATE (R32). -/
theorem hostTurn_lanes (s : State) : (hostTurn s).lanes = s.lanes ∨
    (s.pend = none ∧ ∃ o w v ops, s.host = .write (Config.coreBase + o) w v :: ops ∧ o % w.bytes = 0 ∧ o + w.bytes ≤ 0x0C8) := by
  obtain ⟨-, -, ⟨hl, -⟩ | ⟨hp, o, w, v, ops, hh, ha, ⟨ho, -⟩ | ⟨-, -, hl, -⟩ | ⟨-, -, hl, -⟩⟩⟩ := hostTurn_frame s
  · exact .inl hl
  · exact .inr ⟨hp, o, w, v, ops, hh, ha, ho⟩
  · exact .inl hl
  · exact .inl hl

/-- A host turn changes the buffer only by an accepted write to BLOCK (R33). -/
theorem hostTurn_buf (s : State) : (hostTurn s).buf = s.buf ∨
    (s.pend = none ∧ ∃ o w v ops, s.host = .write (Config.coreBase + o) w v :: ops ∧ o % w.bytes = 0 ∧ 0x100 ≤ o ∧
      o + w.bytes ≤ 0x188) := by
  obtain ⟨-, -, ⟨-, hb, -⟩ | ⟨hp, o, w, v, ops, hh, ha, ⟨-, -, hb, -⟩ | ⟨hlo, ho, -⟩ | ⟨-, -, -, hb, -⟩⟩⟩ := hostTurn_frame s
  · exact .inl hb
  · exact .inl hb
  · exact .inr ⟨hp, o, w, v, ops, hh, ha, hlo, ho⟩
  · exact .inl hb

/-- Settles O50: `hostTurn_lanes`, `completed_lanes`, or a reset. -/
theorem writersOfTheState : Obligations.WritersOfTheState := by
  intro s t h hne
  rcases step_cases_completed h with ⟨hc, rfl⟩ | ⟨-, -, rfl⟩ | ⟨i, hi, rfl⟩ | ⟨hc, -⟩
  · rcases hostTurn_lanes (s.setSched s.sched.tail) with hl | ⟨hp, o, w, v, ops, hh, ha, ho⟩
    · exact absurd hl hne
    · exact .inr (.inr (.inr (.inr (.inl ⟨hc, hp, o, w, v, ops, hh, ha, Nat.zero_le o, ho⟩))))
  · exact absurd rfl hne
  · rcases completed_lanes i (s.setSched s.sched.tail) with hl | rfl | rfl | rfl | rfl
    · exact absurd hl hne
    · exact .inl hi
    · exact .inr (.inl hi)
    · exact .inr (.inr (.inl hi))
    · exact .inr (.inr (.inr (.inl hi)))
  · exact .inr (.inr (.inr (.inr (.inr hc))))

/-- Settles O51: the buffer by `hostTurn_buf` and `completed_buf`; the digest by `completed_dig`, as no host turn changes it. -/
theorem writersOfBufferAndDigest : Obligations.WritersOfBufferAndDigest := by
  intro s t h
  rcases step_cases_completed h with ⟨hc, rfl⟩ | ⟨-, -, rfl⟩ | ⟨i, hi, rfl⟩ | ⟨hc, -⟩
  · refine ⟨fun hne => ?_, fun hne => absurd (hostTurn_frame _).1 hne⟩
    rcases hostTurn_buf (s.setSched s.sched.tail) with hb | ⟨hp, o, w, v, ops, hh, ha, hlo, ho⟩
    · exact absurd hb hne
    · exact .inr (.inr (.inl ⟨hc, hp, o, w, v, ops, hh, ha, hlo, ho⟩))
  · exact ⟨absurd rfl, absurd rfl⟩
  · constructor
    · intro hne
      rcases completed_buf i (s.setSched s.sched.tail) with hb | ⟨r, rfl⟩ | rfl
      · exact absurd hb hne
      · exact .inl ⟨r, hi⟩
      · exact .inr (.inl hi)
    · intro hne
      rcases completed_dig i (s.setSched s.sched.tail) with hd | rfl | rfl
      · exact absurd hd hne
      · exact .inl hi
      · exact .inr (.inl hi)
  · exact ⟨fun _ => .inr (.inr (.inr hc)), fun _ => .inr (.inr hc)⟩

/-- A step that completes `i` ends as `completed i` says. -/
theorem step_eq_completed {s t : State} {i : Instr} (hi : s.Completes i) (h : step s = .next t) :
    t = completed i (s.setSched s.sched.tail) :=
  (exec_eq_next ((step_of_completes hi).symm.trans h)).2

/-- Settles O52: completions count as `completed_blockCount` says, a reset sets 0, and no other step changes the counter. -/
theorem blockCountRule : Obligations.BlockCountRule := by
  intro s t h
  refine ⟨?counted, ?cleared, ?kept⟩
  case counted =>
    rintro (hi | hi) <;> rw [step_eq_completed hi h, completed_blockCount, if_pos (by simp)]
    · exact toNat_add_one _
    · exact toNat_add_one _
  case cleared =>
    rintro (hi | hc)
    · rw [step_eq_completed hi h, completed_blockCount, if_neg (by simp), if_pos rfl]
    · obtain rfl := Host.Outcome.next.inj ((step_reset hc).symm.trans h)
      rfl
  case kept =>
    intro hab hap hin hr
    rcases step_cases_completed h with ⟨-, rfl⟩ | ⟨-, -, rfl⟩ | ⟨i, hi, rfl⟩ | ⟨hc, -⟩
    · exact (hostTurn_frame _).2.1
    · rfl
    · have notCounting : ¬ (i = .absorb ∨ i = .absp) := by
        rintro (rfl | rfl)
        · exact hab hi
        · exact hap hi
      have notInit : i ≠ .init := by
        rintro rfl
        exact hin hi
      rw [completed_blockCount, if_neg notCounting, if_neg notInit, State.setSched_blockCount]
    · exact absurd hc hr

/-- Settles O56: with a command pending no host turn has an accepted write to make. -/
theorem pendingCommandIsUndisturbed : Obligations.PendingCommandIsUndisturbed := by
  intro s t hp hc h
  obtain rfl := Host.Outcome.next.inj ((step_host hc).symm.trans h)
  obtain ⟨hdig, hcount, ⟨hlanes, hbuf, hdvalid, hpend⟩ | ⟨hn, -⟩⟩ := hostTurn_frame (s.setSched s.sched.tail)
  · exact ⟨hpend, hlanes, hbuf, hdig, hcount, hdvalid⟩
  · exact absurd hn hp

end Sys2Proof.Machine

/-! PROOFS. Progress (spec/70_reset_and_hazards.md section 4): whatever the schedule, a run ends idle after a bounded number of turns (R312). -/

namespace Sys2Proof.Machine

/-- A step leaves the host's program, or takes its first operation off it in a host turn. -/
theorem step_host_program {s t : State} (h : step s = .next t) :
    t.host = s.host ∨ (currentTurn s = .host ∧ t.host = s.host.tail) := by
  rcases step_cases h with ⟨hc, rfl⟩ | ⟨-, -, rfl⟩ | ⟨i, -, -, he⟩ | ⟨-, rfl⟩
  · exact (hostTurn_host (s.setSched s.sched.tail)).2.imp id (⟨hc, ·⟩)
  · exact .inl rfl
  · obtain ⟨-, -, -, -, hhost, -⟩ := exec_next_frame he
    exact .inl hhost
  · exact .inl rfl

/-- While the core is idle a host turn performs the first operation, a poll included. -/
theorem hostTurn_host_of_idle {s : State} (hp : s.pend = none) : (hostTurn s).host = s.host.tail := by
  rcases hostTurn_cases s with ⟨hh, e⟩ | ⟨_, w, ops, hh, ⟨-, e⟩ | ⟨o, -, -, e⟩⟩ | ⟨_, w, v, ops, hh, ⟨-, e⟩ | ⟨o, -, -, e⟩⟩ |
    ⟨ops, -, hb, -⟩ | ⟨ops, hh, -, e⟩
  · rw [e, hh]
    rfl
  · rw [e, hh]
    rfl
  · rw [e, hh]
    exact (winRead_frame o w _).1
  · rw [e, hh]
    rfl
  · rw [e, hh]
    exact (winWrite_frame o w v _).1
  · exact absurd hp hb
  · rw [e, hh]
    rfl

/-- The turns that what is left can take once the schedule is used up: two for an operation, since it may issue a command, and one for a
pending command. -/
def State.workLeft (s : State) : Nat := 2 * s.host.length + if s.pend = none then 0 else 1

/-- With the schedule used up every step does some of what is left. -/
theorem workLeft_step {s t : State} (hs : s.sched = []) (h : step s = .next t) : t.workLeft ≤ s.workLeft - 1 := by
  have hturn := currentTurn_nil hs
  by_cases hp : s.pend = none
  · rw [if_pos hp] at hturn
    obtain rfl := Host.Outcome.next.inj ((step_host hturn).symm.trans h)
    have hhost := hostTurn_host_of_idle (s := s.setSched s.sched.tail) hp
    cases hops : s.host with
    | nil =>
      have hsame : hostTurn (s.setSched s.sched.tail) = s.setSched s.sched.tail := by simp [hostTurn, hops]
      simp [State.workLeft, hsame, hops, hp]
    | cons op ops =>
      simp only [State.workLeft, hhost, State.setSched_host, hops, List.tail_cons, List.length_cons]
      split_ifs <;> omega
  · rw [if_neg hp] at hturn
    obtain ⟨i, hi⟩ := Option.ne_none_iff_exists'.mp hp
    obtain ⟨-, hpend, -, -, hhost, -⟩ := exec_next_frame ((step_engine hturn hi).symm.trans h)
    simp only [State.workLeft, hpend, hhost, hp, State.setSched_host, if_true, if_false]
    omega

/-- A run of a consistent state answers a consistent state, whatever its length. -/
theorem State.Consistent.exists_run {s : State} (hs : s.Consistent) (k : Nat) : ∃ t, run k s = .next t ∧ t.Consistent := by
  induction k generalizing s with
  | zero => exact ⟨s, rfl, hs⟩
  | succ k ih =>
    obtain ⟨u, hu⟩ := hs.exists_step
    obtain ⟨t, ht, hct⟩ := ih (hs.step hu)
    exact ⟨t, (run_succ k hu).trans ht, hct⟩

/-- A property that every step keeps holds at the end of a run. -/
theorem run_induction {P : State → Prop} (hstep : ∀ {s t}, P s → step s = .next t → P t) {s t : State} {k : Nat} (hs : P s)
    (h : run k s = .next t) : P t := by
  induction k generalizing s with
  | zero =>
    obtain rfl := Host.Outcome.next.inj h
    exact hs
  | succ k ih =>
    cases hu : step s with
    | next u =>
      rw [run_succ k hu] at h
      exact ih (hstep hs hu) h
    | fault r => cases r
    | refused r =>
      rw [run, hu] at h
      cases h

/-- The host's program never grows. -/
theorem run_host_length {s t : State} {k : Nat} (h : run k s = .next t) : t.host.length ≤ s.host.length := by
  refine run_induction (P := fun u => u.host.length ≤ s.host.length) (fun {u v} hu huv => ?_) (le_refl _) h
  rcases step_host_program huv with e | ⟨-, e⟩
  · rwa [e]
  · rw [e, List.length_tail]
    omega

/-- Once the schedule is used up the run finishes within the work that is left. -/
theorem run_finishes {s : State} (hc : s.Consistent) (hs : s.sched = []) {k : Nat} (hk : s.workLeft ≤ k) :
    ∃ t, run k s = .next t ∧ t.Finished := by
  induction k generalizing s with
  | zero =>
    have h0 : s.workLeft = 0 := by omega
    refine ⟨s, rfl, ?_, ?_, hs⟩
    · by_contra hp
      simp [State.workLeft, hp] at h0
    · exact List.length_eq_zero_iff.mp (by unfold State.workLeft at h0; omega)
  | succ k ih =>
    obtain ⟨u, hu⟩ := hc.exists_step
    have hw := workLeft_step hs hu
    obtain ⟨t, ht, hf⟩ := ih (hc.step hu) (by rw [step_sched hu, hs]; rfl) (by omega)
    exact ⟨t, (run_succ k hu).trans ht, hf⟩

/-- Settles O57: the schedule is used up first, in which the host's program cannot grow, and then `run_finishes`. -/
theorem everyRunEndsIdle : Obligations.EveryRunEndsIdle := by
  intro s hs
  obtain ⟨u, hu, hcu⟩ := hs.exists_run s.sched.length
  have hsched : u.sched = [] := by rw [run_sched hu, List.drop_length]
  have hwork : u.workLeft ≤ 2 * s.host.length + 1 := by
    have := run_host_length hu
    unfold State.workLeft
    split_ifs <;> omega
  obtain ⟨t, ht, hf⟩ := run_finishes hcu hsched hwork
  exact ⟨t, by rw [Nat.add_assoc, run_add _ hu, ht], hf⟩

end Sys2Proof.Machine

/-! PROOFS. Host programs on any schedule (spec/30_encoding.md section 5, spec/70_reset_and_hazards.md section 4): what becomes of a write, a
command with its `wait`, and a read, when other turns come in between. -/

namespace Sys2Proof.Machine

/-! ## Runs that lead somewhere -/

/-- Some run leads from one state to the other. -/
def Reaches (s t : State) : Prop := ∃ k, run k s = .next t

theorem Reaches.refl (s : State) : Reaches s s := ⟨0, rfl⟩

theorem Reaches.trans {s t u : State} (h : Reaches s t) (h' : Reaches t u) : Reaches s u := by
  obtain ⟨k, hk⟩ := h
  obtain ⟨m, hm⟩ := h'
  exact ⟨k + m, (run_add m hk).trans hm⟩

theorem Reaches.of_step {s t : State} (h : step s = .next t) : Reaches s t := ⟨1, (run_one s).trans h⟩

/-- No reset comes any more while an operation is left. -/
def State.Quiet (s : State) : Prop := ∀ m u, run m s = .next u → currentTurn u = .reset → u.host = []

theorem State.Quiet.of_reaches {s t : State} (hq : s.Quiet) (h : Reaches s t) : t.Quiet := by
  obtain ⟨k, hk⟩ := h
  exact fun m u hu => hq (k + m) u ((run_add m hk).trans hu)

theorem State.Quiet.turn_ne_reset {s : State} (hq : s.Quiet) (hh : s.host ≠ []) : currentTurn s ≠ .reset :=
  fun hc => hh (hq 0 s rfl hc)

/-- The host's turn comes: the schedule is used up by other turns, and an ENGINE that is then enabled goes first only once (R312). What those
turns keep still holds. -/
theorem reaches_host_turn {P : State → Prop} (total : ∀ {u}, P u → ∃ v, step u = .next v)
    (kept : ∀ {u v}, P u → currentTurn u ≠ .host → step u = .next v → P v) {s : State} (hs : P s) :
    ∃ u, Reaches s u ∧ P u ∧ currentTurn u = .host := by
  induction hts : s.sched generalizing s with
  | nil =>
    by_cases hp : s.pend = none
    · exact ⟨s, .refl s, hs, by rw [currentTurn_nil hts, if_pos hp]⟩
    · have hc : currentTurn s = .engine := by rw [currentTurn_nil hts, if_neg hp]
      obtain ⟨i, hi⟩ := Option.ne_none_iff_exists'.mp hp
      obtain ⟨v, hv⟩ := total hs
      have hpv : v.pend = none := (exec_next_frame ((step_engine hc hi).symm.trans hv)).2.1
      have hsv : v.sched = [] := by rw [step_sched hv, hts]; rfl
      exact ⟨v, .of_step hv, kept hs (by rw [hc]; decide) hv, by rw [currentTurn_nil hsv, if_pos hpv]⟩
  | cons turn ts ih =>
    by_cases hc : currentTurn s = .host
    · exact ⟨s, .refl s, hs, hc⟩
    · obtain ⟨v, hv⟩ := total hs
      obtain ⟨u, hu, hP, hcu⟩ := ih (kept hs hc hv) (by rw [step_sched hv, hts]; rfl)
      exact ⟨u, (Reaches.of_step hv).trans hu, hP, hcu⟩

/-! ## The core apart from what lies outside it -/

/-- The core as it is, with other operations and turns to come and other reads delivered. -/
def State.setOutside (s : State) (ops : List HostOp) (ts : List Turn) (rs : List (BitVec 64)) : State :=
  { s with host := ops, sched := ts, responses := rs }

/-- A completion reads and writes the core alone. -/
theorem completed_setOutside (i : Instr) (s : State) (ops : List HostOp) (ts : List Turn) (rs : List (BitVec 64)) :
    completed i (s.setOutside ops ts rs) = (completed i s).setOutside ops ts rs := by
  cases i <;> rfl

/-- A completion does not read PEND, which it empties. -/
theorem completed_setPend (i j : Instr) (s : State) : completed i (s.setPend j) = completed i s := by
  cases i <;> rfl

/-- An idle core with an operation left comes to the host's turn unchanged. -/
theorem idle_reaches_host_turn {s : State} (hq : s.Quiet) (hp : s.pend = none) (hh : s.host ≠ []) :
    ∃ ts, Reaches s (s.setSched ts) ∧ currentTurn (s.setSched ts) = .host := by
  have engine {ts : List Turn} (hr : Reaches s (s.setSched ts)) (hc : currentTurn (s.setSched ts) ≠ .host) :
      currentTurn (s.setSched ts) = .engine := by
    have hnr := (hq.of_reaches hr).turn_ne_reset hh
    cases hcur : currentTurn (s.setSched ts) with
    | host => exact absurd hcur hc
    | engine => rfl
    | reset => exact absurd hcur hnr
  have total {u : State} : (Reaches s u ∧ ∃ ts, u = s.setSched ts) → ∃ v, step u = .next v := by
    rintro ⟨hr, ts, rfl⟩
    by_cases hc : currentTurn (s.setSched ts) = .host
    · exact ⟨_, step_host hc⟩
    · exact ⟨_, step_engine_idle (engine hr hc) hp⟩
  have kept {u v : State} : (Reaches s u ∧ ∃ ts, u = s.setSched ts) → currentTurn u ≠ .host → step u = .next v →
      Reaches s v ∧ ∃ ts, v = s.setSched ts := by
    rintro ⟨hr, ts, rfl⟩ hc hv
    refine ⟨hr.trans (.of_step hv), ts.tail, ?_⟩
    exact (Host.Outcome.next.inj ((step_engine_idle (engine hr hc) hp).symm.trans hv)).symm
  obtain ⟨_, -, ⟨hr, ts, rfl⟩, hc⟩ := reaches_host_turn total kept ⟨.refl s, s.sched, rfl⟩
  exact ⟨ts, hr, hc⟩

/-- An idle core performs its next operation. -/
theorem idle_reaches_hostTurn {s : State} (hq : s.Quiet) (hp : s.pend = none) (hh : s.host ≠ []) :
    ∃ ts, Reaches s (hostTurn (s.setSched ts)) := by
  obtain ⟨ts, hr, hc⟩ := idle_reaches_host_turn hq hp hh
  exact ⟨ts.tail, hr.trans (.of_step (step_host hc))⟩

/-! ## `wait` (R119) -/

/-- On an idle core `wait` ends, and changes nothing in the core. -/
theorem reaches_end_of_wait_idle {s : State} {ops : List HostOp} (hq : s.Quiet) (hp : s.pend = none) (hh : s.host = .wait :: ops) :
    ∃ ts rs, Reaches s (s.setOutside ops ts rs) := by
  obtain ⟨ts, hr⟩ := idle_reaches_hostTurn hq hp (by simp [hh])
  rw [hostTurn_poll_idle (s := s.setSched ts) hh hp] at hr
  exact ⟨ts, _, hr⟩

/-- The ENGINE's turn in the middle of a `wait` completes the command, and the next poll ends the `wait`. -/
theorem reaches_end_of_wait_engine {s : State} {i : Instr} {ops : List HostOp} (hq : s.Quiet) (hp : s.pend = some i)
    (hi : i.WellFormed) (hh : s.host = .wait :: ops) (hc : currentTurn s = .engine) :
    ∃ ts rs, Reaches s ((completed i s).setOutside ops ts rs) := by
  have hexec : exec i (s.setSched s.sched.tail) = .next ((completed i s).setOutside s.host s.sched.tail s.responses) := by
    rw [exec_eq_completed hi, ← completed_setOutside]
    rfl
  have hstep := (step_engine hc hp).trans hexec
  obtain ⟨-, hpend, -⟩ := exec_next_frame hexec
  obtain ⟨ts, rs, hr⟩ := reaches_end_of_wait_idle (hq.of_reaches (.of_step hstep)) hpend hh
  exact ⟨ts, rs, (Reaches.of_step hstep).trans hr⟩

/-- With a command pending `wait` ends when the command has completed, and changes nothing else in the core. -/
theorem reaches_end_of_wait_busy {s : State} {i : Instr} {ops : List HostOp} (hq : s.Quiet) (hp : s.pend = some i) (hi : i.WellFormed)
    (hh : s.host = .wait :: ops) : ∃ ts rs, Reaches s ((completed i s).setOutside ops ts rs) := by
  have hbusy : s.pend ≠ none := by simp [hp]
  induction hts : s.sched generalizing s with
  | nil => exact reaches_end_of_wait_engine hq hp hi hh (by rw [currentTurn_nil hts, if_neg hbusy])
  | cons turn ts ih =>
    cases turn with
    | host =>
      have hstep : step s = .next (s.setOutside s.host ts (statusWord s :: s.responses)) := by
        rw [step_host (currentTurn_cons hts), hostTurn_poll_busy (s := s.setSched s.sched.tail) hh hbusy, hts]
        rfl
      obtain ⟨ts', rs, hr⟩ := ih (hq.of_reaches (.of_step hstep)) hp hh hbusy rfl
      rw [completed_setOutside] at hr
      exact ⟨ts', rs, (Reaches.of_step hstep).trans hr⟩
    | engine => exact reaches_end_of_wait_engine hq hp hi hh (currentTurn_cons hts)
    | reset => exact absurd (currentTurn_cons hts) (hq.turn_ne_reset (by simp [hh]))

/-! ## A write, a command and a read of an idle core -/

theorem extractLsb'_setWidth_word (c : Word) : (c.setWidth 64).extractLsb' 0 32 = c := by
  apply BitVec.eq_of_getLsbD_eq
  intro j hj
  simp [hj, show j < 64 by omega]

/-- A command with its `wait` (R119): from an idle core it is accepted and completes, and nothing else happens to the core. -/
theorem reaches_command {s : State} {i : Instr} {ops : List HostOp} (hq : s.Quiet) (hp : s.pend = none) (hi : i.WellFormed)
    (hh : s.host = command i :: .wait :: ops) : ∃ ts rs, Reaches s ((completed i s).setOutside ops ts rs) := by
  obtain ⟨ts, hr⟩ := idle_reaches_hostTurn hq hp (by simp [hh])
  have issued : hostTurn (s.setSched ts) = (s.setOutside (.wait :: ops) ts s.responses).setPend i := by
    rw [hostTurn_wr (s := s.setSched ts) hh (by decide), winWrite_cmd, extractLsb'_setWidth_word]
    exact issueCommand_encode hi hp
  rw [issued] at hr
  obtain ⟨ts', rs, hr'⟩ := reaches_end_of_wait_busy (hq.of_reaches hr) rfl hi rfl
  rw [completed_setPend, completed_setOutside] at hr'
  exact ⟨ts', rs, hr.trans hr'⟩

/-- An aligned write to BLOCK (R79). -/
theorem reaches_block_write {s : State} {w : Width} {j : Nat} {v : BitVec 64} {ops : List HostOp} (hq : s.Quiet) (hp : s.pend = none)
    (ha : j % w.bytes = 0) (hj : j + w.bytes ≤ 136) (hh : s.host = wr w (0x100 + j) v :: ops) :
    ∃ ts, Reaches s ((s.setBuf (writeBlockBytes s.buf j w.bytes v)).setOutside ops ts s.responses) := by
  obtain ⟨ts, hr⟩ := idle_reaches_hostTurn hq hp (by simp [hh])
  have hw := w.bytes_cases
  have aligned : (0x100 + j) % w.bytes = 0 := by
    rcases hw with h | h | h | h <;> rw [h] at ha ⊢ <;> omega
  have written : hostTurn (s.setSched ts) = (s.setBuf (writeBlockBytes s.buf j w.bytes v)).setOutside ops ts s.responses := by
    rw [hostTurn_wr (s := s.setSched ts) hh (by omega), winWrite_block v (by exact hp) aligned (by omega) (by omega),
      Nat.add_sub_cancel_left]
    rfl
  exact ⟨ts, written ▸ hr⟩

/-- A read that changes nothing in the core, at the turn the host performs it. -/
theorem reaches_read {s : State} {w : Width} {o : Nat} {v : BitVec 64} {ops : List HostOp} (hq : s.Quiet) (hp : s.pend = none)
    (ho : o < 0x400) (hv : ∀ ts, winRead o w (s.setOutside ops ts s.responses) = (v, s.setOutside ops ts s.responses))
    (hh : s.host = rd w o :: ops) :
    ∃ ts, Reaches s (s.setSched ts) ∧ currentTurn (s.setSched ts) = .host ∧
      step (s.setSched ts) = .next (s.setOutside ops ts.tail (v :: s.responses)) := by
  obtain ⟨ts, hr, hc⟩ := idle_reaches_host_turn hq hp (by simp [hh])
  refine ⟨ts, hr, hc, ?_⟩
  have hread : winRead o w (((s.setSched ts).setSched ts.tail).setHost ops) = _ := hv ts.tail
  rw [step_host hc, State.setSched_sched, hostTurn_rd (s := (s.setSched ts).setSched ts.tail) hh ho, hread]
  rfl

end Sys2Proof.Machine

/-! PROOFS. The host driver (spec/44_driver.md sections 2 and 3): its parts on any schedule without a reset, and the hash it computes (R243 to
R246). -/

namespace Sys2Proof.Machine

/-! ## The core between two parts of the driver -/

/-- The core is idle without an error, no reset will come, and the host is about to perform `ops`; `A`, `B` and `n` are the state, the
buffer and BLOCK_COUNT. -/
structure State.ReadyFor (s : State) (ops : List HostOp) (A : Lanes) (B : Block) (n : BitVec 32) : Prop where
  host : s.host = ops
  pend : s.pend = none
  err : s.err = false
  errCode : s.errCode = none
  lanes : s.lanes = A
  buf : s.buf = B
  blockCount : s.blockCount = n
  quiet : s.Quiet

/-- A command with its `wait`, from a ready core: what the command does, to DIG and DVALID too. -/
theorem State.ReadyFor.command {s : State} {i : Instr} {ops : List HostOp} {A : Lanes} {B : Block} {n : BitVec 32}
    (h : s.ReadyFor (command i :: .wait :: ops) A B n) (hi : i.WellFormed) :
    ∃ t, Reaches s t ∧ t.ReadyFor ops (completed i s).lanes (completed i s).buf (completed i s).blockCount ∧
      t.dig = (completed i s).dig ∧ t.dvalid = (completed i s).dvalid := by
  obtain ⟨ts, rs, hr⟩ := reaches_command h.quiet h.pend hi h.host
  obtain ⟨-, hpend, herr, hcode, -⟩ := exec_next_frame (exec_eq_completed hi s)
  exact ⟨_, hr, ⟨rfl, hpend, herr.trans h.err, hcode.trans h.errCode, rfl, rfl, rfl, h.quiet.of_reaches hr⟩, rfl, rfl⟩

theorem State.ReadyFor.init {s : State} {ops : List HostOp} {A : Lanes} {B : Block} {n : BitVec 32}
    (h : s.ReadyFor (Machine.command .init :: .wait :: ops) A B n) :
    ∃ t, Reaches s t ∧ t.ReadyFor ops zeroLanes (Vector.replicate 136 0) 0 := by
  obtain ⟨t, hr, ht, -⟩ := h.command (i := .init) rfl
  simp only [completed] at ht
  exact ⟨t, hr, ht⟩

theorem State.ReadyFor.absp {s : State} {ops : List HostOp} {A : Lanes} {B : Block} {n : BitVec 32}
    (h : s.ReadyFor (Machine.command .absp :: .wait :: ops) A B n) :
    ∃ t, Reaches s t ∧ t.ReadyFor ops (keccakF (absorb A B)) B (n + 1) := by
  obtain ⟨t, hr, ht, -⟩ := h.command (i := .absp) rfl
  simp only [completed, h.lanes, h.buf, h.blockCount] at ht
  exact ⟨t, hr, ht⟩

theorem State.ReadyFor.pad {s : State} {r : Nat} (hr : r ≤ 135) {ops : List HostOp} {A : Lanes} {B : Block} {n : BitVec 32}
    (h : s.ReadyFor (Machine.command (.pad (BitVec.ofNat 8 r)) :: .wait :: ops) A B n) :
    ∃ t, Reaches s t ∧ t.ReadyFor ops A (padBlock r B) n := by
  have hr' := toNat_argument hr
  obtain ⟨t, hreach, ht, -⟩ := h.command ((wellFormed_pad_iff _).mpr (by omega))
  simp only [completed, hr', h.lanes, h.buf, h.blockCount] at ht
  exact ⟨t, hreach, ht⟩

/-- After SQUEEZE the digest is valid (R221). -/
theorem State.ReadyFor.squeeze {s : State} {ops : List HostOp} {A : Lanes} {B : Block} {n : BitVec 32}
    (h : s.ReadyFor (Machine.command .squeeze :: .wait :: ops) A B n) :
    ∃ t, Reaches s t ∧ t.ReadyFor ops A B n ∧ t.dig = Machine.squeeze A ∧ t.dvalid = true := by
  obtain ⟨t, hr, ht, hdig, hdvalid⟩ := h.command (i := .squeeze) rfl
  simp only [completed, h.lanes, h.buf, h.blockCount] at ht hdig hdvalid
  exact ⟨t, hr, ht, hdig, hdvalid⟩

/-! ## `ldblk` (R119) -/

/-- A row of writes of one width to BLOCK, each behind the one before: the bytes they cover are those of the values written. -/
theorem State.ReadyFor.block_writes {w : Width} {j : Nat → Nat} {off : Nat} (hj : ∀ i, j i = off + w.bytes * i)
    (ha : off % w.bytes = 0) (v : Nat → BitVec 64) {m : Nat} (hm : off + w.bytes * m ≤ 136) {s : State} {ops : List HostOp}
    {A : Lanes} {B : Block} {n : BitVec 32}
    (h : s.ReadyFor ((List.range m).map (fun i => wr w (0x100 + j i) (v i)) ++ ops) A B n) :
    ∃ t B', Reaches s t ∧ t.ReadyFor ops A B' n ∧
      ∀ a, a < 136 → blockByte B' a =
        if off ≤ a ∧ a < off + w.bytes * m then byteOf (v ((a - off) / w.bytes)) ((a - off) % w.bytes) else blockByte B a := by
  induction m generalizing ops with
  | zero => exact ⟨s, B, .refl s, h, fun a _ => by rw [Nat.mul_zero, if_neg (by omega)]⟩
  | succ m ih =>
    rw [Nat.mul_succ] at hm
    rw [List.range_succ, List.map_append, List.append_assoc] at h
    obtain ⟨u, B₁, hu, hready, hbytes⟩ := ih (by omega) h
    have aligned : j m % w.bytes = 0 := by rw [hj, Nat.add_mul_mod_self_left, ha]
    obtain ⟨ts, ht⟩ := reaches_block_write hready.quiet hready.pend aligned (by rw [hj]; omega) hready.host
    refine ⟨_, writeBlockBytes B₁ (j m) w.bytes (v m), hu.trans ht, ?_, fun a ha' => ?_⟩
    · exact ⟨rfl, hready.pend, hready.err, hready.errCode, hready.lanes, by rw [← hready.buf]; rfl, hready.blockCount,
        hready.quiet.of_reaches ht⟩
    · rw [blockByte_writeBlockBytes _ _ _ _ a ha', hj, hbytes a ha', Nat.mul_succ]
      have hpos : 0 < w.bytes := by have := w.bytes_cases; omega
      by_cases hnew : off + w.bytes * m ≤ a ∧ a < off + w.bytes * m + w.bytes
      · have hdiv : (a - off) / w.bytes = m := by
          rw [show a - off = (a - (off + w.bytes * m)) + w.bytes * m by omega, Nat.add_mul_div_left _ _ hpos,
            Nat.div_eq_of_lt (by omega), Nat.zero_add]
        have hmod : (a - off) % w.bytes = a - (off + w.bytes * m) := by
          rw [show a - off = (a - (off + w.bytes * m)) + w.bytes * m by omega, Nat.add_mul_mod_self_left,
            Nat.mod_eq_of_lt (by omega)]
        rw [if_pos hnew, if_pos (by omega), hdiv, hmod]
      · have hold : (off ≤ a ∧ a < off + (w.bytes * m + w.bytes)) ↔ (off ≤ a ∧ a < off + w.bytes * m) := by omega
        rw [if_neg hnew]
        simp only [hold]

theorem byteOf_setWidth_zero (b : Byte) : byteOf (b.setWidth 64) 0 = b := by
  apply BitVec.eq_of_getLsbD_eq
  intro j hj
  rw [getLsbD_byteOf, BitVec.getLsbD_setWidth, Nat.mul_zero, Nat.zero_add]
  simp only [hj, show j < 64 by omega, decide_true, Bool.true_and]

/-- `ldblk n, b` puts the first `n` bytes of `b` into the buffer (R119). -/
theorem State.ReadyFor.ldblk {n : Nat} (hn : n ≤ 136) (b : List Byte) {s : State} {ops : List HostOp} {A : Lanes} {B : Block}
    {c : BitVec 32} (h : s.ReadyFor (ldblk n b ++ ops) A B c) :
    ∃ t B', Reaches s t ∧ t.ReadyFor ops A B' c ∧ ∀ a, a < n → blockByte B' a = b.getD a 0 := by
  rw [Machine.ldblk, List.append_assoc] at h
  obtain ⟨u, B₁, hu, hready, hlanes⟩ := State.ReadyFor.block_writes (w := .w8) (j := fun i => 8 * i) (off := 0)
    (fun i => (Nat.zero_add _).symm) rfl _ (by simp only [Width.bytes]; omega) h
  obtain ⟨t, B₂, ht, hready', hrest⟩ := State.ReadyFor.block_writes (w := .w1) (j := fun m => 8 * (n / 8) + m) (off := 8 * (n / 8))
    (fun i => by rw [Width.bytes, Nat.one_mul]) (Nat.mod_one _) _ (by simp only [Width.bytes]; omega) hready
  refine ⟨t, B₂, hu.trans ht, hready', fun a ha => ?_⟩
  simp only [Width.bytes, Nat.one_mul, Nat.div_one, Nat.mod_one, Nat.zero_add, Nat.sub_zero] at hlanes hrest
  rw [hrest a (by omega)]
  by_cases hhi : 8 * (n / 8) ≤ a
  · rw [if_pos (by omega), byteOf_setWidth_zero, Nat.add_sub_cancel' hhi]
  · have ha' : 8 * (a / 8) + a % 8 = a := Nat.div_add_mod a 8
    rw [if_neg (by omega), hlanes a (by omega), if_pos (by omega), byteOf_laneOfBytes _ _ (by omega), ha']

/-! ## The blocks of the message (R243, R245) -/

/-- The state after the first `k` full blocks of the message (R243). -/
def absorbBlocks (M : List Byte) (k : Nat) : Lanes :=
  (List.range k).foldl (fun A i => keccakF (absorb A (messageBlock M i))) zeroLanes

theorem absorbBlocks_succ (M : List Byte) (k : Nat) :
    absorbBlocks M (k + 1) = keccakF (absorb (absorbBlocks M k) (messageBlock M k)) := by
  simp only [absorbBlocks, List.range_succ, List.foldl_append, List.foldl_cons, List.foldl_nil]

/-- The hash: the full blocks, then the final one, then the digest (R243). -/
theorem hashMessage_eq (M : List Byte) :
    hashMessage M = squeeze (keccakF (absorb (absorbBlocks M (M.length / 136)) (finalBlock M))) := by
  simp only [hashMessage, pad, List.foldl_append, List.foldl_map, List.foldl_cons, List.foldl_nil, absorbBlocks]

theorem getD_drop (M : List Byte) (n a : Nat) : (M.drop n).getD a 0 = M.getD (n + a) 0 := by
  rw [List.getD_eq_getElem?_getD, List.getElem?_drop, List.getD_eq_getElem?_getD]

/-- The driver's loop over the full blocks (R245). -/
theorem State.ReadyFor.full_blocks (M : List Byte) (k : Nat) {s : State} {ops : List HostOp} {B : Block}
    (h : s.ReadyFor ((List.range k).flatMap (fun i => Machine.ldblk 136 (M.drop (136 * i)) ++ blockStep) ++ ops) zeroLanes B 0) :
    ∃ t B', Reaches s t ∧ t.ReadyFor ops (absorbBlocks M k) B' (BitVec.ofNat 32 k) := by
  induction k generalizing ops with
  | zero => exact ⟨s, B, .refl s, h⟩
  | succ k ih =>
    rw [List.range_succ, List.flatMap_append, List.flatMap_singleton, List.append_assoc, List.append_assoc] at h
    obtain ⟨t₁, B₁, h₁, hready₁⟩ := ih h
    obtain ⟨t₂, B₂, h₂, hready₂, hbytes⟩ := hready₁.ldblk (le_refl _)
    obtain ⟨t₃, h₃, hready₃⟩ := hready₂.absp
    have hblock : B₂ = messageBlock M k := block_ext fun j hj => by
      rw [hbytes j hj, blockByte_messageBlock M k j hj, getD_drop]
    have hcount : BitVec.ofNat 32 k + 1 = BitVec.ofNat 32 (k + 1) := (BitVec.ofNat_add k 1).symm
    rw [hblock, ← absorbBlocks_succ, hcount] at hready₃
    exact ⟨t₃, _, h₁.trans (h₂.trans h₃), hready₃⟩

/-- `final r` makes the last block, absorbs it and squeezes (R119, R245). -/
theorem State.ReadyFor.final {M : List Byte} {s : State} {ops : List HostOp} {B : Block} {n : BitVec 32}
    (hB : ∀ j, j < M.length % 136 → blockByte B j = M.getD (136 * (M.length / 136) + j) 0)
    (h : s.ReadyFor (finalStep (M.length % 136) ++ ops) (absorbBlocks M (M.length / 136)) B n) :
    ∃ t A B', Reaches s t ∧ t.ReadyFor ops A B' (n + 1) ∧ t.dig = hashMessage M ∧ t.dvalid = true := by
  obtain ⟨t₁, h₁, hready₁⟩ := State.ReadyFor.pad (by omega) h
  rw [padBlock_eq_finalBlock hB] at hready₁
  obtain ⟨t₂, h₂, hready₂⟩ := hready₁.absp
  obtain ⟨t₃, h₃, hready₃, hdig, hdvalid⟩ := hready₂.squeeze
  exact ⟨t₃, _, _, h₁.trans (h₂.trans h₃), hready₃, by rw [hdig, hashMessage_eq], hdvalid⟩

end Sys2Proof.Machine

/-! PROOFS. A whole run of the host driver (spec/44_driver.md section 3): from any consistent state to its last read, what it reads there (R245,
R246), and the runs that observe it (R247). -/

namespace Sys2Proof.Machine

/-! ## Before the first `wait` -/

/-- A turn that is not the host's leaves what lies outside the core, the schedule apart. -/
theorem outside_of_not_host_step {s t : State} (hc : currentTurn s ≠ .host) (h : step s = .next t) :
    t.host = s.host ∧ t.responses = s.responses := by
  rcases step_cases h with ⟨hc', -⟩ | ⟨-, -, rfl⟩ | ⟨i, -, -, he⟩ | ⟨-, rfl⟩
  · exact absurd hc' hc
  · exact ⟨rfl, rfl⟩
  · obtain ⟨-, -, -, -, hhost, -, hresp, -⟩ := exec_next_frame he
    exact ⟨hhost, hresp⟩
  · exact ⟨rfl, rfl⟩

/-- A turn that is not the host's sets no error (R273, R300). -/
theorem err_of_not_host_step {s t : State} (hc : currentTurn s ≠ .host) (h : step s = .next t) (he : s.err = false) :
    t.err = false := by
  cases hturn : currentTurn s with
  | host => exact absurd hturn hc
  | engine => exact (errors_of_engine_step h hturn).1.trans he
  | reset =>
    obtain rfl := Host.Outcome.next.inj ((step_reset hturn).symm.trans h)
    rfl

/-- What the host has read only grows (R78). -/
theorem hostTurn_responses (s : State) : (hostTurn s).responses = s.responses ∨ ∃ v, (hostTurn s).responses = v :: s.responses := by
  rcases hostTurn_cases s with ⟨-, e⟩ | ⟨_, w, ops, -, ⟨-, e⟩ | ⟨o, -, -, e⟩⟩ | ⟨_, w, v, ops, -, ⟨-, e⟩ | ⟨o, -, -, e⟩⟩ |
    ⟨ops, -, -, e⟩ | ⟨ops, -, -, e⟩ <;> rw [e]
  · exact .inl rfl
  · exact .inl rfl
  · obtain ⟨-, -, hresp, -⟩ := winRead_frame o w (s.setHost ops)
    exact .inr ⟨_, by rw [State.respond_responses, hresp, State.setHost_responses]⟩
  · exact .inl rfl
  · obtain ⟨-, -, hresp, -⟩ := winWrite_frame o w v (s.setHost ops)
    exact .inl hresp
  · exact .inr ⟨_, rfl⟩
  · exact .inr ⟨_, rfl⟩

theorem responses_length_le_of_run {s t : State} {k : Nat} (h : run k s = .next t) : s.responses.length ≤ t.responses.length := by
  refine run_induction (P := fun u => s.responses.length ≤ u.responses.length) (fun {u v} hu huv => ?_) (le_refl _) h
  by_cases hc : currentTurn u = .host
  · obtain rfl := Host.Outcome.next.inj ((step_host hc).symm.trans huv)
    rcases hostTurn_responses (u.setSched u.sched.tail) with e | ⟨x, e⟩ <;> rw [e]
    · exact hu
    · rw [List.length_cons]
      exact Nat.le_succ_of_le hu
  · rwa [(outside_of_not_host_step hc huv).2]

/-- R246's condition leaves no reset once the host has read something. -/
theorem State.NoResetWithin.quiet {s t : State} (hn : s.NoResetWithin) (h : Reaches s t)
    (hlt : s.responses.length < t.responses.length) : t.Quiet := by
  obtain ⟨k, hk⟩ := h
  intro m u hu hc
  rcases hn (k + m) u ((run_add m hk).trans hu) hc with e | e
  · have := responses_length_le_of_run hu
    rw [e] at this
    omega
  · exact e

theorem State.Consistent.errCode_eq_none {s : State} (hs : s.Consistent) (he : s.err = false) : s.errCode = none := by
  have hcode := hs.errCode_iff
  rwa [he, Option.isSome_eq_false_iff, Option.isNone_iff_eq_none] at hcode

/-- The states of a run that still waits to perform `ops`, having read nothing since it began with `base`. -/
def Waiting (base : List (BitVec 64)) (ops : List HostOp) (s : State) : Prop :=
  s.Consistent ∧ s.host = ops ∧ s.responses = base

theorem Waiting.step {base : List (BitVec 64)} {ops : List HostOp} {s t : State} (hs : Waiting base ops s)
    (hc : currentTurn s ≠ .host) (h : step s = .next t) : Waiting base ops t := by
  obtain ⟨hcons, hhost, hresp⟩ := hs
  obtain ⟨hhost', hresp'⟩ := outside_of_not_host_step hc h
  exact ⟨hcons.step h, hhost'.trans hhost, hresp'.trans hresp⟩

/-- `clrerr` clears the error, whatever goes before it (R276). -/
theorem reaches_clrerr {s : State} {ops : List HostOp} (hs : s.Consistent) (hh : s.host = clrerr :: ops) :
    ∃ t, Reaches s t ∧ Waiting s.responses ops t ∧ t.err = false := by
  obtain ⟨u, hr, ⟨hcons, hhost, hresp⟩, hc⟩ := reaches_host_turn (P := Waiting s.responses (clrerr :: ops))
    (fun hu => hu.1.exists_step) Waiting.step ⟨hs, hh, rfl⟩
  have cleared : step u = .next ((u.setSched u.sched.tail).setHost ops).clearErr := by
    rw [step_host hc, hostTurn_wr (s := u.setSched u.sched.tail) hhost (by decide), winWrite_status]
    rfl
  exact ⟨_, hr.trans (.of_step cleared), ⟨hcons.step cleared, rfl, hresp⟩, rfl⟩

/-- The first `wait` ends idle and without an error, and from its first access on no reset comes (R246). -/
theorem reaches_end_of_first_wait {s t : State} {ops : List HostOp} (hn : s.NoResetWithin) (hr : Reaches s t)
    (ht : Waiting s.responses (.wait :: ops) t) (herr : t.err = false) :
    ∃ u, Reaches s u ∧ u.ReadyFor ops u.lanes u.buf u.blockCount := by
  obtain ⟨u, hu, ⟨⟨hcons, hhost, hresp⟩, herr'⟩, hc⟩ := reaches_host_turn
    (P := fun u => Waiting s.responses (.wait :: ops) u ∧ u.err = false) (fun hu => hu.1.1.exists_step)
    (fun hu hc h => ⟨hu.1.step hc h, err_of_not_host_step hc h hu.2⟩) ⟨ht, herr⟩
  have hcode := hcons.errCode_eq_none herr'
  have hstep := step_host hc
  have polled := (hr.trans hu).trans (.of_step hstep)
  by_cases hp : u.pend = none
  · rw [hostTurn_poll_idle (s := u.setSched u.sched.tail) hhost hp] at polled
    exact ⟨_, polled, rfl, hp, herr', hcode, rfl, rfl, rfl, hn.quiet polled (by simp [hresp])⟩
  · rw [hostTurn_poll_busy (s := u.setSched u.sched.tail) hhost hp] at polled
    obtain ⟨i, hi⟩ := Option.ne_none_iff_exists'.mp hp
    have hwf := hcons.pend_wellFormed i hi
    have hq := hn.quiet polled (by simp [hresp])
    obtain ⟨ts, rs, hr'⟩ := reaches_end_of_wait_busy hq hi hwf hhost
    obtain ⟨-, hpend, herr'', hcode', -⟩ := exec_next_frame (exec_eq_completed hwf
      ((u.setSched u.sched.tail).respond (statusWord (u.setSched u.sched.tail))))
    exact ⟨_, polled.trans hr', rfl, hpend, herr''.trans herr', hcode'.trans hcode, rfl, rfl, rfl, hq.of_reaches hr'⟩

/-! ## The last reads (R245) -/

/-- `rd.4 0x308 -> st; rddig -> d`: the driver's last five operations. -/
def lastReads : List HostOp := [rd .w4 0x308, rd .w8 0x200, rd .w8 0x208, rd .w8 0x210, rd .w8 0x218]

theorem driver_eq (M : List Byte) : driver M = clrerr :: .wait :: command .init :: .wait :: (driverBlocks M ++
    (ldblk (M.length % 136) (M.drop (136 * (M.length / 136))) ++ (finalStep (M.length % 136) ++ lastReads))) := by
  simp only [driver, List.append_assoc]
  rfl

/-- STATUS of an idle core with a valid digest and no error reads as 2 (R38). -/
theorem statusWord_eq_two {s : State} (hp : s.pend = none) (hv : s.dvalid = true) (he : s.err = false) (hc : s.errCode = none) :
    statusWord s = 2 := by
  rw [statusWord, (State.not_busy_iff s).mpr hp, hv, he, hc]
  rfl

/-- The `i`-th word of a digest, as an 8-byte read delivers it (R75, R78). -/
def digestLane (D : Digest) (i : Nat) : BitVec 64 := laneOfBytes fun k => digestByte D (8 * i + k)

theorem byteOf_digestLane (D : Digest) (i k : Nat) (hk : k < 8) : byteOf (digestLane D i) k = digestByte D (8 * i + k) := by
  rw [digestLane, byteOf_laneOfBytes _ _ hk]

theorem winRead_digestLane {s : State} (hp : s.pend = none) (i : Nat) (hi : i < 4) :
    winRead (0x200 + 8 * i) .w8 s = (digestLane s.dig i, s) := by
  rw [winRead_data hp (by simp only [Width.bytes]; omega) (by simp only [Width.bytes]; omega)]
  refine congrArg (·, s) (laneOfBytes_congr fun k hk => ?_)
  rw [winByte_digest s (by omega)]
  exact congrArg (digestByte s.dig) (by omega)

/-- What the driver has read at its end: STATUS and the four lanes of the digest, newest first. -/
def finalResponses (D : Digest) (older : List (BitVec 64)) : List (BitVec 64) :=
  digestLane D 3 :: digestLane D 2 :: digestLane D 1 :: digestLane D 0 :: 2 :: older

/-- From a ready core with a valid digest the driver comes to its last read, which changes nothing in the core. -/
theorem State.ReadyFor.last_reads {s : State} {A : Lanes} {B : Block} {n : BitVec 32} (h : s.ReadyFor lastReads A B n)
    (hv : s.dvalid = true) : ∃ u ts, Reaches s u ∧ currentTurn u = .host ∧ u.host = [rd .w8 0x218] ∧
      step u = .next (s.setOutside [] ts (finalResponses s.dig s.responses)) := by
  obtain ⟨hhost, hp, herr, hcode, -, -, -, hq⟩ := h
  have digestRead (i : Nat) (hi : i < 4) {ops : List HostOp} {ts : List Turn} {rs : List (BitVec 64)}
      (hr : Reaches s (s.setOutside (rd .w8 (0x200 + 8 * i) :: ops) ts rs)) : ∃ u ts', Reaches s u ∧ currentTurn u = .host ∧
      u.host = rd .w8 (0x200 + 8 * i) :: ops ∧ step u = .next (s.setOutside ops ts' (digestLane s.dig i :: rs)) := by
    obtain ⟨ts', hr', hc, hstep⟩ := reaches_read (v := digestLane s.dig i) (hq.of_reaches hr) hp (by omega)
      (fun ts' => winRead_digestLane (s := s.setOutside ops ts' rs) hp i hi) rfl
    exact ⟨_, ts'.tail, hr.trans hr', hc, rfl, hstep⟩
  have next {u : State} {t : State} (hr : Reaches s u) (hstep : step u = .next t) : Reaches s t := hr.trans (.of_step hstep)
  obtain ⟨ts, hr, -, hstep⟩ := reaches_read (v := 2) hq hp (by decide)
    (fun ts => by rw [winRead_status, statusWord_eq_two (s := s.setOutside _ ts _) hp hv herr hcode]) hhost
  obtain ⟨u₀, ts₀, hr₀, -, -, hstep₀⟩ := digestRead 0 (by decide) (next hr hstep)
  obtain ⟨u₁, ts₁, hr₁, -, -, hstep₁⟩ := digestRead 1 (by decide) (next hr₀ hstep₀)
  obtain ⟨u₂, ts₂, hr₂, -, -, hstep₂⟩ := digestRead 2 (by decide) (next hr₁ hstep₁)
  obtain ⟨u₃, ts₃, hr₃, hc, hhost₃, hstep₃⟩ := digestRead 3 (by decide) (next hr₂ hstep₂)
  exact ⟨u₃, ts₃, hr₃, hc, hhost₃, hstep₃⟩

/-! ## The whole driver (R246) -/

/-- The state in which the driver for `M` ends (R246). -/
structure DriverDone (M : List Byte) (t : State) : Prop where
  host : t.host = []
  pend : t.pend = none
  err : t.err = false
  dvalid : t.dvalid = true
  dig : t.dig = hashMessage M
  blockCount : t.blockCount = BitVec.ofNat 32 (M.length / 136 + 1)
  responses : ∃ older, t.responses = finalResponses (hashMessage M) older

/-- From any consistent state the driver comes to its last read and ends there. -/
theorem driver_reaches_last_read {M : List Byte} {s : State} (hs : s.Consistent) (hh : s.host = driver M) (hn : s.NoResetWithin) :
    ∃ u t, Reaches s u ∧ currentTurn u = .host ∧ u.host = [rd .w8 0x218] ∧ step u = .next t ∧ DriverDone M t := by
  rw [driver_eq] at hh
  obtain ⟨t₀, h₀, hwaiting, herr⟩ := reaches_clrerr hs hh
  obtain ⟨t₁, h₁, ready₁⟩ := reaches_end_of_first_wait hn h₀ hwaiting herr
  obtain ⟨t₂, h₂, ready₂⟩ := ready₁.init
  obtain ⟨t₃, B₃, h₃, ready₃⟩ := ready₂.full_blocks M (M.length / 136)
  obtain ⟨t₄, B₄, h₄, ready₄, htail⟩ := ready₃.ldblk (by omega)
  obtain ⟨t₅, A₅, B₅, h₅, ready₅, hdig, hdvalid⟩ := ready₄.final (M := M) (fun j hj => by rw [htail j hj, getD_drop])
  obtain ⟨u, ts, h₆, hc, hhost, hstep⟩ := ready₅.last_reads hdvalid
  refine ⟨u, _, h₁.trans (h₂.trans (h₃.trans (h₄.trans (h₅.trans h₆)))), hc, hhost, hstep, ?_⟩
  rw [hdig]
  exact ⟨rfl, ready₅.pend, ready₅.err, hdvalid, hdig, ready₅.blockCount.trans (BitVec.ofNat_add _ 1).symm, _, rfl⟩

/-- Settles O58: the driver ends one step after `driver_reaches_last_read`. -/
theorem driverComputesHash : Obligations.DriverComputesHash := by
  intro M s hs hh hn
  obtain ⟨u, t, ⟨m, hm⟩, -, -, hstep, done⟩ := driver_reaches_last_read hs hh hn
  obtain ⟨older, hresp⟩ := done.responses
  refine ⟨m + 1, t, by rw [run_add 1 hm, run_one, hstep], done.host, done.pend, done.err, done.dvalid, done.dig, ?_,
    digestLane (hashMessage M), older, hresp, fun i k _ hk => byteOf_digestLane _ i k hk⟩
  rw [done.blockCount, BitVec.toNat_ofNat]

end Sys2Proof.Machine

/-! PROOFS. What a run of the driver observes (spec/44_driver.md section 3): where it ends, and what cuts it short (R245, R247). -/

namespace Sys2Proof.Machine

/-! ## Runs and their observation -/

theorem run_succ_last {s t : State} {k : Nat} (h : run (k + 1) s = .next t) : ∃ u, run k s = .next u ∧ step u = .next t := by
  induction k generalizing s with
  | zero => exact ⟨s, rfl, by rwa [Nat.zero_add, run_one] at h⟩
  | succ k ih =>
    cases hs : step s with
    | next v =>
      rw [run_succ (k + 1) hs] at h
      obtain ⟨u, hu, hstep⟩ := ih h
      exact ⟨u, (run_succ k hs).trans hu, hstep⟩
    | fault r => cases r
    | refused r =>
      rw [run, hs] at h
      cases h

/-- Of two states of one run the later is reached from the earlier. -/
theorem run_sub {s t u : State} {m k : Nat} (hm : run m s = .next t) (hk : run k s = .next u) (hle : m ≤ k) :
    run (k - m) t = .next u := by
  rw [← run_add (k - m) hm, Nat.add_sub_cancel' hle, hk]

/-- Where an operation is left, one was left all along. -/
theorem host_ne_of_later {s t u : State} {m k : Nat} (hm : run m s = .next t) (hk : run k s = .next u) (hle : m ≤ k)
    (hu : u.host ≠ []) : t.host ≠ [] :=
  host_ne_of_run (run_sub hm hk hle) hu

/-- The run passes this state: it does not end here, and no reset cuts it short (R247, log 25). -/
def Passes (base : List (BitVec 64)) (v : State) : Prop :=
  v.observation = none ∧ (currentTurn v = .reset → v.responses = base)

/-- An observation is made at one state of the run, and the run passes every state before it. -/
theorem observeRun_eq_some {base : List (BitVec 64)} {k : Nat} {s : State} {o : Observation} (h : observeRun base k s = some o) :
    ∃ m t, m ≤ k ∧ run m s = .next t ∧ t.observation = some o ∧ ∀ n v, n < m → run n s = .next v → Passes base v := by
  induction k generalizing s with
  | zero => exact ⟨0, s, le_refl 0, rfl, h, fun n _ hn => absurd hn (Nat.not_lt_zero n)⟩
  | succ k ih =>
    cases ho : s.observation with
    | some o' =>
      rw [observeRun_of_observation _ ho] at h
      exact ⟨0, s, Nat.zero_le _, rfl, ho.trans h, fun n _ hn => absurd hn (Nat.not_lt_zero n)⟩
    | none =>
      have hpass : Passes base s := ⟨ho, fun hc => by_contra fun hb => by
        rw [observeRun_reset _ ho hc hb] at h
        cases h⟩
      cases hs : step s with
      | next u =>
        rw [observeRun_step k ho hpass.2 hs] at h
        obtain ⟨m, t, hle, ht, hot, hbefore⟩ := ih h
        refine ⟨m + 1, t, Nat.succ_le_succ hle, (run_succ m hs).trans ht, hot, fun n v hn hv => ?_⟩
        cases n with
        | zero =>
          obtain rfl := Host.Outcome.next.inj hv
          exact hpass
        | succ n =>
          rw [run_succ n hs] at hv
          exact hbefore n v (Nat.lt_of_succ_lt_succ hn) hv
      | fault r => cases r
      | refused r =>
        simp only [observeRun, ho, hs, ite_self] at h
        cases h

/-- A run that passes its first `m` states observes what is observed from there. -/
theorem observeRun_of_passes {base : List (BitVec 64)} {m : Nat} (k : Nat) {s t : State} (h : run m s = .next t)
    (hpass : ∀ n v, n < m → run n s = .next v → Passes base v) : observeRun base (m + k) s = observeRun base k t := by
  induction m generalizing s with
  | zero =>
    obtain rfl := Host.Outcome.next.inj h
    rw [Nat.zero_add]
  | succ m ih =>
    obtain ⟨ho, hreset⟩ := hpass 0 s (Nat.succ_pos m) rfl
    cases hs : step s with
    | next u =>
      rw [run_succ m hs] at h
      rw [Nat.add_right_comm, observeRun_step (m + k) ho hreset hs]
      exact ih h fun n v hn hv => hpass (n + 1) v (Nat.succ_lt_succ hn) ((run_succ n hs).trans hv)
    | fault r => cases r
    | refused r =>
      rw [run, hs] at h
      cases h

/-! ## How the driver's program comes to its end -/

/-- What holds throughout a run of the driver: its last `wait` is still to come, or the core is idle and the last reads made so far have
been delivered. -/
def DriverInvariant (s : State) : Prop :=
  (∃ ops, s.host = ops ++ .wait :: lastReads) ∨
  ∃ n, n ≤ 5 ∧ s.host = lastReads.drop n ∧ s.pend = none ∧ n ≤ s.responses.length

theorem driverInvariant_of_driver {M : List Byte} {s : State} (h : s.host = driver M) : DriverInvariant s := by
  refine .inl ⟨clrerr :: .wait :: command .init :: .wait :: (driverBlocks M ++
    (ldblk (M.length % 136) (M.drop (136 * (M.length / 136))) ++ (finalStep (M.length % 136)).dropLast)), ?_⟩
  rw [h, driver_eq]
  simp [finalStep]

/-- Each of the last operations is a read inside the window. -/
theorem lastReads_drop {n : Nat} (hn : n < 5) : ∃ w o, o < 0x400 ∧ lastReads.drop n = rd w o :: lastReads.drop (n + 1) := by
  interval_cases n <;> exact ⟨_, _, by decide, rfl⟩

/-- A turn that is not the host's leaves an idle core idle (R48, R300). -/
theorem pend_of_not_host_step {s t : State} (hc : currentTurn s ≠ .host) (h : step s = .next t) (hp : s.pend = none) :
    t.pend = none := by
  rcases step_cases h with ⟨hc', -⟩ | ⟨-, -, rfl⟩ | ⟨i, -, hi, -⟩ | ⟨-, rfl⟩
  · exact absurd hc' hc
  · exact hp
  · exact absurd hp (by simp [hi])
  · rfl

theorem DriverInvariant.hostTurn {s : State} (h : DriverInvariant s) : DriverInvariant (hostTurn s) := by
  rcases h with ⟨ops, hh⟩ | ⟨n, hn, hh, hp, hresp⟩
  · cases ops with
    | nil =>
      by_cases hp : s.pend = none
      · rw [hostTurn_poll_idle hh hp]
        exact .inr ⟨0, by decide, rfl, hp, Nat.zero_le _⟩
      · rw [hostTurn_poll_busy hh hp]
        exact .inl ⟨[], hh⟩
    | cons op ops =>
      rcases (hostTurn_host s).2 with e | e
      · exact .inl ⟨op :: ops, e.trans hh⟩
      · exact .inl ⟨ops, by rw [e, hh]; rfl⟩
  · rcases Nat.lt_or_eq_of_le hn with hlt | rfl
    · obtain ⟨w, o, ho, hdrop⟩ := lastReads_drop hlt
      rw [hostTurn_rd (hh.trans hdrop) ho]
      obtain ⟨hhost, -, hresp', hpend⟩ := winRead_frame o w (s.setHost (lastReads.drop (n + 1)))
      refine .inr ⟨n + 1, hlt, hhost, hpend.trans hp, ?_⟩
      rw [State.respond_responses, hresp', List.length_cons]
      exact Nat.succ_le_succ hresp
    · have hsame : Machine.hostTurn s = s := by simp only [Machine.hostTurn, show s.host = [] from hh]
      rw [hsame]
      exact .inr ⟨5, hn, hh, hp, hresp⟩

theorem DriverInvariant.step {s t : State} (h : DriverInvariant s) (hs : step s = .next t) : DriverInvariant t := by
  by_cases hc : currentTurn s = .host
  · obtain rfl := Host.Outcome.next.inj ((step_host hc).symm.trans hs)
    exact DriverInvariant.hostTurn (s := s.setSched s.sched.tail) h
  · obtain ⟨hhost, hresp⟩ := outside_of_not_host_step hc hs
    rcases h with ⟨ops, hh⟩ | ⟨n, hn, hh, hp, hlen⟩
    · exact .inl ⟨ops, hhost.trans hh⟩
    · exact .inr ⟨n, hn, hhost.trans hh, pend_of_not_host_step hc hs hp, hresp ▸ hlen⟩

/-- Once five reads have been delivered there is something to observe (R245). -/
theorem exists_observeReads {rs : List (BitVec 64)} (h : 5 ≤ rs.length) : ∃ o, observeReads rs = some o := by
  match rs, h with
  | t3 :: t2 :: t1 :: t0 :: st :: _, _ => exact ⟨_, rfl⟩

/-- With no operation left the driver has made its observation, in an idle core. -/
theorem DriverInvariant.exists_observation {s : State} (h : DriverInvariant s) (hh : s.host = []) :
    s.pend = none ∧ ∃ o, observeReads s.responses = some o ∧ s.observation = some o := by
  rcases h with ⟨ops, hops⟩ | ⟨n, hn, hdrop, hp, hlen⟩
  · rw [hh] at hops
    exact absurd hops.symm (by simp)
  · have hlength := congrArg List.length (hdrop.symm.trans hh)
    rw [List.length_drop, show lastReads.length = 5 from rfl, List.length_nil] at hlength
    obtain ⟨o, ho⟩ := exists_observeReads (rs := s.responses) (by omega)
    exact ⟨hp, o, ho, (if_pos ⟨hh, hp⟩).trans ho⟩

/-- The driver's program ends with the host's turn that performs the read at 0x218. -/
theorem DriverInvariant.last_step {u t : State} (hu : DriverInvariant u) (hs : Machine.step u = .next t) (hne : u.host ≠ [])
    (ht : t.host = []) : currentTurn u = .host ∧ u.host = [.read (Config.coreBase + 0x218) .w8] := by
  rcases step_host_program hs with e | ⟨hc, e⟩
  · exact absurd (e.symm.trans ht) hne
  · refine ⟨hc, ?_⟩
    have htail := congrArg List.length (e.symm.trans ht)
    rcases hu with ⟨ops, hops⟩ | ⟨n, hn, hdrop, -, -⟩
    · rw [hops, List.length_tail, List.length_append, List.length_cons, show lastReads.length = 5 from rfl, List.length_nil] at htail
      omega
    · have hpos : 0 < u.host.length := List.length_pos_iff.mpr hne
      rw [List.length_tail, List.length_nil] at htail
      rw [hdrop, List.length_drop, show lastReads.length = 5 from rfl] at hpos htail
      obtain rfl : n = 4 := by omega
      exact hdrop

/-- The read at 0x218 is performed at the host's turn, and no operation is left. -/
theorem host_of_last_read {u t : State} (hc : currentTurn u = .host) (hu : u.host = [.read (Config.coreBase + 0x218) .w8])
    (hs : step u = .next t) : t.host = [] := by
  rw [step_host hc, hostTurn_rd (s := u.setSched u.sched.tail) (w := .w8) (o := 0x218) hu (by decide)] at hs
  obtain rfl := Host.Outcome.next.inj hs
  exact (winRead_frame 0x218 .w8 _).1

/-- A run of the driver that comes to its last read, no reset having come since its first `wait`, has from the next step on the observation
of the reads delivered then (R247). -/
theorem runDriver_of_last_read {M : List Byte} {s u t : State} {m : Nat} (hm : run m (s.setHost (driver M)) = .next u)
    (hc : currentTurn u = .host) (hu : u.host = [.read (Config.coreBase + 0x218) .w8]) (hs : step u = .next t)
    (hreset : ∀ n v, n < m → run n (s.setHost (driver M)) = .next v → currentTurn v = .reset → v.responses = s.responses) :
    t.host = [] ∧ t.pend = none ∧ ∃ o, observeReads t.responses = some o ∧ ∀ k, m < k → runDriver M k s = some o := by
  have hne : u.host ≠ [] := by simp [hu]
  have ht := host_of_last_read hc hu hs
  have invariant : DriverInvariant t :=
    (run_induction DriverInvariant.step (driverInvariant_of_driver (s := s.setHost (driver M)) rfl) hm).step hs
  obtain ⟨hp, o, hreads, hobs⟩ := invariant.exists_observation ht
  have passed : ∀ n v, n < m → run n (s.setHost (driver M)) = .next v → Passes s.responses v := fun n v hn hv =>
    ⟨observation_of_host_ne (host_ne_of_later hv hm (le_of_lt hn) hne), hreset n v hn hv⟩
  refine ⟨ht, hp, o, hreads, fun k hk => ?_⟩
  obtain ⟨j, rfl⟩ := Nat.exists_eq_add_of_lt hk
  rw [runDriver, Nat.add_assoc, observeRun_of_passes (j + 1) hm passed,
    observeRun_step j (observation_of_host_ne hne) (by simp [hc]) hs, observeRun_of_observation j hobs]

theorem getD_of_four (f : Nat → BitVec 64) {i : Nat} (hi : i < 4) : [f 0, f 1, f 2, f 3].getD i 0 = f i := by
  interval_cases i <;> rfl

/-- The four words of a digest make it up again (R119). -/
theorem digestOfWords_digestLane (D : Digest) :
    digestOfWords (digestLane D 0) (digestLane D 1) (digestLane D 2) (digestLane D 3) = D := by
  apply digest_ext
  intro j hj
  have hi : j / 8 < 4 := by omega
  rw [← Nat.div_add_mod j 8, digestByte_digestOfWords _ _ _ _ _ _ hi (by omega), getD_of_four (digestLane D) hi,
    byteOf_digestLane _ _ _ (by omega)]

/-- Settles O59: `driver_reaches_last_read` brings the run to its last read, and `runDriver_of_last_read` observes it. -/
theorem driverReturnsHash : Obligations.DriverReturnsHash := by
  intro M s hs hn
  have hs' : (s.setHost (driver M)).Consistent := hs.setHost _
  obtain ⟨u, t, ⟨m, hm⟩, hc, hu, hstep, done⟩ := driver_reaches_last_read hs' rfl hn
  have hreset : ∀ n v, n < m → run n (s.setHost (driver M)) = .next v → currentTurn v = .reset → v.responses = s.responses :=
    fun n v hlt hv hcv => (hn n v hv hcv).resolve_right (host_ne_of_later hv hm (le_of_lt hlt) (by simp [hu]))
  obtain ⟨-, -, o, ho, hrun⟩ := runDriver_of_last_read hm hc hu hstep hreset
  obtain ⟨older, hresp⟩ := done.responses
  have hobs : o = { st := 2, d := hashMessage M } := by
    rw [hresp] at ho
    obtain rfl := Option.some.inj ho
    exact congrArg (Observation.mk 2) (digestOfWords_digestLane _)
  refine ⟨m + 1, fun k hk => ?_⟩
  have hk' := hrun k hk
  rw [hobs] at hk'
  have passes : (2 : BitVec 64).getLsbD 2 = false ∧ (2 : BitVec 64).getLsbD 1 = true := by decide
  exact ⟨hk', by rw [driverResult, hk', Option.bind_some, Observation.digest_eq, if_pos passes]⟩

/-- A run of the driver with an observation has come to an end in the state it is made of, and has passed every state before it. -/
theorem runDriver_eq_some {M : List Byte} {s : State} {k : Nat} {o : Observation} (h : runDriver M k s = some o) :
    ∃ m t, m ≤ k ∧ run m (s.setHost (driver M)) = .next t ∧ t.host = [] ∧ t.pend = none ∧ observeReads t.responses = some o ∧
      ∀ n v, n < m → run n (s.setHost (driver M)) = .next v → Passes s.responses v := by
  obtain ⟨m, t, hle, ht, hobs, hpass⟩ := observeRun_eq_some h
  obtain ⟨hhost, hpend, hreads⟩ := observation_eq_some hobs
  exact ⟨m, t, hle, ht, hhost, hpend, hreads, hpass⟩

/-- While an operation is left the run has no observation (R247). -/
theorem runDriver_of_host_ne {M : List Byte} {s u : State} {k : Nat} (hk : run k (s.setHost (driver M)) = .next u)
    (hu : u.host ≠ []) : runDriver M k s = none := by
  by_contra hne
  obtain ⟨o, ho⟩ := Option.ne_none_iff_exists'.mp hne
  obtain ⟨m, t, hle, ht, hhost, -⟩ := runDriver_eq_some ho
  exact host_ne_of_later ht hk hle hu hhost

/-- A reset that comes once the run has read something, while an operation is left, leaves it without an observation (R247, log 25). -/
theorem runDriver_of_reset {M : List Byte} {s u : State} {m : Nat} (hm : run m (s.setHost (driver M)) = .next u) (hu : u.host ≠ [])
    (hc : currentTurn u = .reset) (hresp : u.responses ≠ s.responses) (k : Nat) : runDriver M k s = none := by
  by_contra hne
  obtain ⟨o, ho⟩ := Option.ne_none_iff_exists'.mp hne
  obtain ⟨n, t, -, ht, hhost, -, -, hpass⟩ := runDriver_eq_some ho
  by_cases hle : n ≤ m
  · exact host_ne_of_later ht hm hle hu hhost
  · exact hresp ((hpass m u (not_le.mp hle) hm).2 hc)

/-- A run with an observation ended at the step that performed the last read (R247). -/
theorem last_read_of_runDriver {M : List Byte} {s : State} {k : Nat} {o : Observation} (h : runDriver M k s = some o) :
    ∃ m u t, m < k ∧ run m (s.setHost (driver M)) = .next u ∧ currentTurn u = .host ∧
      u.host = [.read (Config.coreBase + 0x218) .w8] ∧ step u = .next t ∧ t.host = [] ∧ t.pend = none ∧
      observeReads t.responses = some o := by
  obtain ⟨m, t, hle, ht, hhost, hpend, hreads, hpass⟩ := runDriver_eq_some h
  cases m with
  | zero =>
    obtain rfl := Host.Outcome.next.inj ht
    rw [State.setHost_host, driver_eq] at hhost
    cases hhost
  | succ m =>
    obtain ⟨u, hu, hstep⟩ := run_succ_last ht
    have invariant : DriverInvariant u :=
      run_induction DriverInvariant.step (driverInvariant_of_driver (s := s.setHost (driver M)) rfl) hu
    have hne : u.host ≠ [] := by
      intro h0
      obtain ⟨-, o', -, hobs⟩ := invariant.exists_observation h0
      rw [(hpass m u (Nat.lt_succ_self m) hu).1] at hobs
      cases hobs
    obtain ⟨hc, hlast⟩ := invariant.last_step hstep hne hhost
    exact ⟨m, u, t, hle, hu, hc, hlast, hstep, hhost, hpend, hreads⟩

/-- Settles O60: forwards by `last_read_of_runDriver`, backwards by `runDriver_of_last_read`; without an observation by
`runDriver_of_host_ne` and `runDriver_of_reset`; and the driver's test of STATUS. -/
theorem driverRunEndsAtLastRead : Obligations.DriverRunEndsAtLastRead := by
  intro M s q
  refine ⟨fun k o h => ?_, fun m u t hm hc hu hs => runDriver_of_last_read hm hc hu hs, fun k u => runDriver_of_host_ne,
    fun k m u hm hu hc hresp => runDriver_of_reset hm hu hc hresp k, fun k o h => ?_⟩
  · obtain ⟨m, u, t, hlt, hu, hc, hlast, hstep, hhost, hpend, hreads⟩ := last_read_of_runDriver h
    obtain ⟨t0, t1, t2, t3, older, hresp, hd⟩ := observeReads_eq_some hreads
    refine ⟨m, u, t, hlt, hu, hc, hlast, hstep, hhost, hpend, fun i => [t0, t1, t2, t3].getD i 0, older, hresp, fun i j hi hj => ?_⟩
    rw [hd, digestByte_digestOfWords t0 t1 t2 t3 i j hi hj]
  · rw [driverResult, h, Option.bind_some, Observation.digest_eq]

end Sys2Proof.Machine
